-- ==== Sys2Proof/Word.lean ====
section
/-!
DEFINITION. The word types of the machine (spec/00_scope.md R5, R6).
-/

namespace Sys2Proof

/-- One byte of memory: 8 bits (R30). -/
abbrev Byte := BitVec 8

/-- An instruction word: 32 bits, fixed length (R50). Bit 0 of the type is the least significant
bit; the source's bit `k` is bit `31 - k` (R6). -/
abbrev Word := BitVec 32

/-- A memory address or effective address, and the program counter: 32 bits (R15, R30, R38). -/
abbrev Address := BitVec 32

/-- The contents of a general register (R10) or of a floating-point register (R14). -/
abbrev Double := BitVec 64

/-- The number of a general register, a 5-bit field of the instruction word (R10, R55). -/
abbrev GprNum := BitVec 5

/-- The number of a floating-point register, a 5-bit field of the instruction word (R13, R55). -/
abbrev FprNum := BitVec 5

/-- The displacement field of a D-form instruction: 16 bits, two's complement (R54). -/
abbrev Disp := BitVec 16

end Sys2Proof
end

