-- ==== Sys2Proof/Syntax.lean ====
section
/-!
DEFINITION. The instructions: one constructor for each row of spec/opcode_table.json
(spec/30_encoding.md R56).
-/

namespace Sys2Proof

/-- The four instructions in scope. A register operand is the value of its 5-bit field; what a zero
in the RA field means depends on the instruction (R55) and is said by its meaning. -/
inductive Instr where
  /-- `lfd FD, d(RA0)`: Load Floating-Point Double (R74). -/
  | lfd (frt : FprNum) (ra : GprNum) (d : Disp)
  /-- `lfdu FD, d(RA)`: Load Floating-Point Double with Update (R75). -/
  | lfdu (frt : FprNum) (ra : GprNum) (d : Disp)
  /-- `lfdux FD, RA, RB`: Load Floating-Point Double with Update Indexed (R76). -/
  | lfdux (frt : FprNum) (ra rb : GprNum)
  /-- `lfdx FD, RA0, RB`: Load Floating-Point Double Indexed (R77). -/
  | lfdx (frt : FprNum) (ra rb : GprNum)
  deriving DecidableEq, Repr

end Sys2Proof
end

