-- ==== Sys2Proof/Decode.lean ====
section
/-!
DEFINITION. Instruction encoding (spec/30_encoding.md): the fields of a word, decoding in two levels
(R51), the words of an instruction, and the bytes of a word (spec/20_memory.md R39).
-/

namespace Sys2Proof

/-! ## Fields of an instruction word (R52, R53) -/

/-- OPCD, the primary opcode, source bits 0–5. -/
def opcdField (w : Word) : BitVec 6 := w.extractLsb' 26 6

/-- FRT, the destination floating-point register, source bits 6–10 (90_conflicts.md C1, C7). -/
def frtField (w : Word) : FprNum := w.extractLsb' 21 5

/-- RA, source bits 11–15. -/
def raField (w : Word) : GprNum := w.extractLsb' 16 5

/-- RB, source bits 16–20 of a form X word. -/
def rbField (w : Word) : GprNum := w.extractLsb' 11 5

/-- XO, the extended opcode, source bits 21–30 of a form X word. -/
def xoField (w : Word) : BitVec 10 := w.extractLsb' 1 10

/-- Rc, source bit 31 of a form X word; 0 in both form X instructions (R58). -/
def rcField (w : Word) : BitVec 1 := w.extractLsb' 0 1

/-- D, the displacement, source bits 16–31 of a form D word. -/
def dField (w : Word) : Disp := w.extractLsb' 0 16

/-! ## Decoding -/

/-- Why bytes are not an instruction of this spec. -/
inductive DecodeReject where
  /-- The word matches no row of the opcode table (R61). -/
  | notInSpec (w : Word)
  /-- Fewer than four bytes were given: an instruction is one 32-bit word (R50). -/
  | tooShort
  deriving DecidableEq, Repr

/-- The second level of decoding, for OPCD = 31: XO with Rc = 0 selects the instruction (R51, R58). -/
def decodeX (w : Word) : Except DecodeReject Instr :=
  if rcField w ≠ 0#1 then .error (.notInSpec w)
  else if xoField w = 599#10 then .ok (.lfdx (frtField w) (raField w) (rbField w))
  else if xoField w = 631#10 then .ok (.lfdux (frtField w) (raField w) (rbField w))
  else .error (.notInSpec w)

/-- The instruction a word stands for. The primary opcode is read first; 50 and 51 select by
themselves, 31 goes on to the extended opcode, any other word is not in the spec (R51, R61). An
invalid form matches its row and is decoded; its RA is judged by its meaning (R56, R59). -/
def decode (w : Word) : Except DecodeReject Instr :=
  if opcdField w = 50#6 then .ok (.lfd (frtField w) (raField w) (dField w))
  else if opcdField w = 51#6 then .ok (.lfdu (frtField w) (raField w) (dField w))
  else if opcdField w = 31#6 then decodeX w
  else .error (.notInSpec w)

/-- The big-endian value of a list of bytes, the first byte most significant (R31, R39). -/
def bigEndian : List Byte → Nat :=
  List.foldl (fun acc b => acc * 256 + b.toNat) 0

/-- Decoding of a stream of bytes: the first four, most significant first, are the word; the rest is
handed back. Total: fewer than four bytes are rejected. -/
def decodeBytes : List Byte → Except DecodeReject (Instr × List Byte)
  | b0 :: b1 :: b2 :: b3 :: rest =>
    match decode (BitVec.ofNat 32 (bigEndian [b0, b1, b2, b3])) with
    | .ok i => .ok (i, rest)
    | .error r => .error r
  | _ => .error .tooShort

/-! ## Encoding -/

/-- A field's value at its place in the word: its least significant bit at bit `lo`, zeros around. -/
def placeField {n : Nat} (v : BitVec n) (lo : Nat) : Word := v.setWidth 32 <<< lo

/-- A form D word: OPCD, FRT, RA, D (R52). -/
def formD (opcd : BitVec 6) (frt : FprNum) (ra : GprNum) (d : Disp) : Word :=
  placeField opcd 26 ||| placeField frt 21 ||| placeField ra 16 ||| placeField d 0

/-- A form X word: OPCD, FRT, RA, RB, XO, Rc (R53). -/
def formX (opcd : BitVec 6) (frt : FprNum) (ra rb : GprNum) (xo : BitVec 10) (rc : BitVec 1) : Word :=
  placeField opcd 26 ||| placeField frt 21 ||| placeField ra 16 ||| placeField rb 11 |||
    placeField xo 1 ||| placeField rc 0

/-- The word of an instruction, with the opcodes of R56. Every field value is encodable. -/
def encode : Instr → Word
  | .lfd frt ra d => formD 50#6 frt ra d
  | .lfdu frt ra d => formD 51#6 frt ra d
  | .lfdux frt ra rb => formX 31#6 frt ra rb 631#10 0#1
  | .lfdx frt ra rb => formX 31#6 frt ra rb 599#10 0#1

/-- The four bytes of a word as they stand in memory, lowest address first: most significant byte
first (R39). -/
def bytesOfWord (w : Word) : List Byte :=
  [w.extractLsb' 24 8, w.extractLsb' 16 8, w.extractLsb' 8 8, w.extractLsb' 0 8]

/-- The word whose bits are the low `nbits` bits of `w`. -/
def tableWord (nbits w : Nat) : Word := BitVec.ofNat 32 (w % 2 ^ nbits)

/-- The instruction the decoder reads from an opcode-table word of `nbits` bits: the word's bytes as
the hardware stores them, given to `decodeBytes`. -/
def decodeTableWord (nbits w : Nat) : Option Instr :=
  match decodeBytes (bytesOfWord (tableWord nbits w)) with
  | .ok (i, _) => some i
  | .error _ => none

end Sys2Proof
end

