-- ==== Sys2Proof/Config.lean ====
section
/-!
DEFINITION. What the launch state fixes for a whole run beside the registers and the memory
contents (spec/00_scope.md R5, spec/70_reset_and_hazards.md R111): the admission map, the end
address and the two policy parameters. Plain data, held in `State`, changed by no step.
-/

namespace Sys2Proof.Machine

/-- The kind of a memory access (R36). -/
inductive Access where
  /-- The 4-byte instruction fetch (R39). -/
  | fetch
  /-- The 8-byte data read (R33). -/
  | load
  deriving DecidableEq, Repr

/-- A range of addresses the platform backs, with the kinds of access it allows there. The predicate
`Admit` of R36 is given as a list of these (log 12). -/
structure Region where
  /-- The first address of the range. -/
  base : Nat
  /-- The number of bytes of the range. -/
  size : Nat
  /-- Instruction fetch is admitted inside the range. -/
  fetch : Bool
  /-- Data reads are admitted inside the range. -/
  load : Bool
  deriving DecidableEq, Repr

/-- `INVALID_FORM_POLICY`: what `lfdu` and `lfdux` with RA = 0 do (R59). -/
inductive InvalidFormPolicy where
  /-- The default of R5: the step is refused. -/
  | refuse
  /-- As the source's interpreter does: `r0` is the base and is written. -/
  | asInterpreter
  deriving DecidableEq, Repr

/-- The parameters of a run (R5, R111) other than the registers, `MSR_FP` and the memory bytes. -/
structure Config where
  /-- `Admit`, as the list of admitted ranges (R36). -/
  regions : List Region
  /-- `CODE_END`, the address at which the run is over (R114). -/
  codeEnd : Address
  /-- `INVALID_FORM_POLICY` (R59). -/
  invalidForm : InvalidFormPolicy
  /-- `RA_UPDATE_FULL64` (R73). -/
  raUpdateFull64 : Bool
  deriving DecidableEq, Repr

end Sys2Proof.Machine
end

