-- ==== Sys2Proof/Machine/State.lean ====
section
/-!
DEFINITION. The state of the machine (spec/10_state.md), the reasons a step can stop
(spec/60_exceptions.md section 1), and the state the model calls reset (log 1).
-/

namespace Sys2Proof.Machine

/-- The launch memory's contents `Mem0` (R22, R30): the bytes that differ from what an unlisted
address reads as, by strictly rising address. Every map from 32-bit address to byte has exactly one
such list (`Memory.wf` says which lists are in this form). -/
structure Memory where
  /-- The listed bytes. -/
  cells : List Host.Cell
  deriving DecidableEq, Repr

/-- Everything the spec gives the machine (10_state.md section 1), and the parameters the launch
state gives (R111). FPSCR, CR, XER, the vector registers and the other MSR fields are named by the
spec and held by no state (R17 to R21, D4; log 22). -/
structure State where
  /-- The general registers `r0` to `r31`, 64 bits each; none is hardwired (R10, R11). -/
  gpr : Vector Double 32
  /-- The floating-point registers `f0` to `f31`, 64-bit patterns (R13, R14). -/
  fpr : Vector Double 32
  /-- The address of the instruction being executed (R15). -/
  pc : Address
  /-- MSR[FP]: the floating-point unit is enabled (R17). -/
  msrFp : Bool
  /-- The contents of memory (R22). -/
  mem : Memory
  /-- `Admit`, `CODE_END` and the two policy parameters (R111). -/
  config : Config
  deriving DecidableEq, Repr

/-- The events the hardware is said, or implied, to have (R8). Each ends the run: no handler is
entered (R97; log 18). -/
inductive Fault where
  /-- The Floating-Point Unavailable interrupt: raised by all four instructions when MSR[FP] is 0
  (R90). Safe: the model stops where the hardware goes on in a handler the spec does not give. -/
  | fpUnavailable
  /-- An access `Admit` does not allow: raised by the instruction fetch (with `pc`) and by the data
  read of all four instructions (with the effective address) (R92). Safe: the model stops. -/
  | memFault (addr : Address)
  deriving DecidableEq, Repr

/-- What the spec gives no meaning to (R98). A refusal says nothing about the hardware. -/
inductive Refusal where
  /-- An instruction that has no meaning yet, by its table mnemonic. No instruction of this model
  raises it. Safe. -/
  | notModelled (mnemonic : String)
  /-- The fetched word matches no row of the opcode table (R61): raised by the step. Safe. -/
  | notInSpec (w : Word)
  /-- `lfdu` or `lfdux` with RA = 0 under the policy `refuse` (R59): raised by the two. Safe. -/
  | invalidForm
  /-- The fetch address is not a multiple of 4 (R40): raised by the step. Safe. -/
  | pcMisaligned
  /-- `pc + 4` from `0xFFFF_FFFC` has no value (R16): raised by all four instructions when they would
  otherwise complete. Safe. -/
  | pcWrap
  /-- `pc = CODE_END`: the run is over and there is no step (R113, R114): raised by the step. Safe:
  nothing is said of what the hardware does next (log 9). -/
  | runOver
  deriving DecidableEq, Repr

/-- The answer of one step (R8). -/
abbrev Answer := Host.Outcome State Fault Refusal

/-- The admission map of the reset state: the whole address space of R22, for both kinds of access.
DESIGN CHOICE, unsafe (log 7). -/
def Config.everything : List Region := [⟨0, 2 ^ 32, true, true⟩]

/-- The state the model calls reset. The spec defines no reset (R110); this is one launch state, that
of the EMPTY program: `CODE_END` equals the entry address (R114 with N = 0). The two policies have the
defaults of R5 and MSR[FP] the value of R24's user code. Every other value is a DESIGN CHOICE, unsafe
(log 2 to 8). -/
def State.reset : State where
  gpr := Vector.replicate 32 0
  fpr := Vector.replicate 32 0
  pc := 0
  msrFp := true
  mem := ⟨[]⟩
  config :=
    { regions := Config.everything
      codeEnd := 0
      invalidForm := .refuse
      raUpdateFull64 := false }

end Sys2Proof.Machine
end

