-- ==== Sys2Proof/Machine/Ops.lean ====
section
/-!
DEFINITION. The named operations over registers and memory, admission, the events of
spec/60_exceptions.md, the load common to the four instructions (spec/40_fp_load_double.md R70) and
the fetch (spec/20_memory.md R39). Every read and write of state goes through this file.
-/

namespace Sys2Proof.Machine

/-! ## Registers (R10, R13, R15) -/

/-- `x[n]`: register `n` itself, `r0` included; the literal zero of an RA0 slot is not made here (R7,
R11). -/
def State.readGpr (s : State) (n : GprNum) : Double := s.gpr[n.toNat]'n.isLt

/-- `x[n] <- v` (R7). -/
def State.setGpr (s : State) (n : GprNum) (v : Double) : State :=
  { s with gpr := s.gpr.set n.toNat v n.isLt }

/-- `f[n]` (R7, R13). -/
def State.readFpr (s : State) (n : FprNum) : Double := s.fpr[n.toNat]'n.isLt

/-- `f[n] <- v` (R7, R13). -/
def State.setFpr (s : State) (n : FprNum) (v : Double) : State :=
  { s with fpr := s.fpr.set n.toNat v n.isLt }

/-- `pc <- t` (R7). -/
def State.setPc (s : State) (t : Address) : State := { s with pc := t }

/-- `pc <- pc + 4`, the end of every instruction that completes (R16). -/
def State.advance (s : State) : State := s.setPc (s.pc + 4)

/-- The last address a fetch fits at, where `pc + 4` has no value (R16, R37). -/
def lastPc : Address := 0xFFFFFFFC#32

/-! ## Memory bytes (R22, R30) -/

/-- The number of byte addresses (R22). -/
def addressCount : Nat := 2 ^ 32

/-- What an unlisted address reads as: the spec gives no contents (N4, N9). DESIGN CHOICE, unsafe
(log 6). -/
def unlistedByte : Byte := 0

/-- The byte listed at an address, or the unlisted byte. -/
def lookupCell : List Host.Cell → Nat → Byte
  | [], _ => unlistedByte
  | (x, c) :: rest, a => if x = a then c else lookupCell rest a

/-- A cell at the head of a list, unless it holds what an unlisted address reads as. -/
def consCell (a : Nat) (b : Byte) (rest : List Host.Cell) : List Host.Cell :=
  if b = unlistedByte then rest else (a, b) :: rest

/-- A list of cells with the byte at one address replaced, keeping the addresses rising. -/
def storeCell : List Host.Cell → Nat → Byte → List Host.Cell
  | [], a, b => consCell a b []
  | (x, c) :: rest, a, b =>
    if a < x then consCell a b ((x, c) :: rest)
    else if a = x then consCell a b rest
    else (x, c) :: storeCell rest a b

/-- `Mem[a]`: the byte at an address. -/
def Memory.read (m : Memory) (a : Nat) : Byte := lookupCell m.cells a

/-- `Mem[a] <- b`. An address outside the 2^32 of R22 holds no byte and stays unlisted. -/
def Memory.write (m : Memory) (a : Nat) (b : Byte) : Memory :=
  if a < addressCount then ⟨storeCell m.cells a b⟩ else m

/-- The canonical form: addresses strictly rising and below 2^32, no entry equal to the unlisted
byte. -/
abbrev Memory.wf (m : Memory) : Prop :=
  m.cells.Pairwise (fun p q => p.1 < q.1) ∧
    ∀ p ∈ m.cells, p.1 < addressCount ∧ p.2 ≠ unlistedByte

/-- The `n` bytes from address `a`, lowest address first. -/
def Memory.bytes (m : Memory) (a : Nat) : Nat → List Byte
  | 0 => []
  | n + 1 => m.read a :: m.bytes (a + 1) n

/-- `MemRead(a, n)` as a number: the bytes from `a`, the byte at `a` most significant, for every width
(R31). -/
def Memory.readBE (m : Memory) (a n : Nat) : Nat := bigEndian (m.bytes a n)

/-- The 8-byte read (R31, R33). -/
def Memory.read64 (m : Memory) (a : Nat) : Double := BitVec.ofNat 64 (m.readBE a 8)

/-- The 4-byte read of instruction fetch (R39). -/
def Memory.read32 (m : Memory) (a : Nat) : Word := BitVec.ofNat 32 (m.readBE a 4)

/-- A list of bytes written from address `a` upwards: `MemWrite` of R7, by which a program is placed
in memory at launch (R111). No instruction writes memory (R34). -/
def Memory.writeBytes (m : Memory) (a : Nat) : List Byte → Memory
  | [] => m
  | b :: rest => (m.write a b).writeBytes (a + 1) rest

/-! ## Admission (R36, R37) -/

/-- The range allows this kind of access. -/
def Region.allows (r : Region) : Access → Bool
  | .fetch => r.fetch
  | .load => r.load

/-- The `n` bytes from `a` lie wholly inside the range. -/
def Region.covers (r : Region) (a n : Nat) : Bool :=
  decide (r.base ≤ a) && decide (a + n ≤ r.base + r.size)

/-- `Admit(a, n, kind)`: some range of the launch's map holds all the bytes and allows the kind (R36);
never past the top of the address space, and the byte addresses do not wrap (R37). -/
def Config.admits (c : Config) (a : Address) (n : Nat) (kind : Access) : Bool :=
  decide (a.toNat + n ≤ addressCount) &&
    c.regions.any fun r => r.allows kind && r.covers a.toNat n

/-! ## Events (60_exceptions.md) -/

/-- `raise FPUnavailable`: the Floating-Point Unavailable interrupt (R90). The spec gives it no entry:
no vector, no saved register, no change of mode (R91, R97), so taking it ends the run with no state
written (R96). There is no return from it (R99). -/
def raiseFpUnavailable : Answer := .fault .fpUnavailable

/-- `raise MemFault(addr)` (R92); it ends the run with no state written (R96, R97). -/
def raiseMemFault (addr : Address) : Answer := .fault (.memFault addr)

/-! ## The load (R70) -/

/-- Step 1 of R70, for the update forms: with RA = 0 the form is invalid, and the policy `refuse` ends
the step; `asInterpreter` goes on with register `r0` (R59, R75, R76). -/
def requireForm (s : State) (ra : GprNum) (run : Answer) : Answer :=
  if ra = 0 ∧ s.config.invalidForm = .refuse then .refused .invalidForm else run

/-- Steps 2, 4 and 7 of R70 in the order of R95: the enable, the admission of the 8-byte read at `ea`,
the wrap of `pc`; then the instruction completes with `finish` applied to the value read. A
misaligned `ea` is an ordinary one (R35). -/
def loadDouble (s : State) (ea : Address) (finish : Double → State) : Answer :=
  if s.msrFp = false then raiseFpUnavailable
  else if s.config.admits ea 8 .load = false then raiseMemFault ea
  else if s.pc = lastPc then .refused .pcWrap
  else .next (finish (s.mem.read64 ea.toNat))

/-! ## The fetch (R39, R40, R113) -/

/-- Everything of R113 before the meaning of the instruction: the end of the run, the alignment of
`pc`, the admission of the fetch, the fetch and the decoding; then the instruction is run. -/
def fetchAndRun (s : State) (run : Instr → Answer) : Answer :=
  if s.pc = s.config.codeEnd then .refused .runOver
  else if s.pc.toNat % 4 ≠ 0 then .refused .pcMisaligned
  else if s.config.admits s.pc 4 .fetch = false then raiseMemFault s.pc
  else
    match decode (s.mem.read32 s.pc.toNat) with
    | .ok i => run i
    | .error _ => .refused (.notInSpec (s.mem.read32 s.pc.toNat))

/-! ## Placing one instruction where the step fetches (log 28) -/

/-- The parameters with the fetch at `pc` made possible: admitted if it is not, and the run not over
there (`CODE_END` past the one word, R114 with N = 1). -/
def Config.openAt (c : Config) (pc : Address) : Config :=
  { c with
    regions := if c.admits pc 4 .fetch then c.regions else ⟨pc.toNat, 4, true, false⟩ :: c.regions
    codeEnd := if c.codeEnd = pc then pc + 4 else c.codeEnd }

/-- The state with a word stored at `pc`, most significant byte first (R39), and the fetch there
possible. -/
def State.placeWord (s : State) (w : Word) : State :=
  { s with
    mem := s.mem.writeBytes s.pc.toNat (bytesOfWord w)
    config := s.config.openAt s.pc }

end Sys2Proof.Machine
end

