-- ==== Sys2Proof/Machine/Operands.lean ====
section
/-!
DEFINITION. The operand forms of the four instructions (spec/30_encoding.md R54, R55), the effective
address (spec/20_memory.md R38) and the value of the base update (spec/40_fp_load_double.md R73). The
instructions compute no flag (R72), so there is no flag computation.
-/

namespace Sys2Proof.Machine

/-- The operand RA0 of `lfd` and `lfdx`: the literal 64-bit zero when the field is 0, not `r0` (R55). -/
def operandRA0 (s : State) (ra : GprNum) : Double := if ra = 0 then 0 else s.readGpr ra

/-- The operand RA of `lfdu` and `lfdux`: the register, `r0` included (R55, R59). -/
def operandRA (s : State) (ra : GprNum) : Double := s.readGpr ra

/-- The operand RB of `lfdx` and `lfdux`: the register; RB = 0 is `r0` itself (R55). -/
def operandRB (s : State) (rb : GprNum) : Double := s.readGpr rb

/-- The operand `d`: sign-extended from 16 to 64 bits, not scaled (R54). -/
def operandD (d : Disp) : Double := d.signExtend 64

/-- `base +64 offset`: the sum modulo 2^64, no flag and no trap (R72). -/
def addressSum (base offset : Double) : Double := base + offset

/-- The effective address: the low 32 bits of the sum (R38). -/
def truncate32 (sum : Double) : Address := sum.setWidth 32

/-- The value an update form writes to RA: the 32-bit address zero-extended, or with
`RA_UPDATE_FULL64` the whole sum (R73). -/
def raUpdate (s : State) (sum : Double) : Double :=
  if s.config.raUpdateFull64 then sum else (truncate32 sum).setWidth 64

/-- A load without update from the sum of its operands: FRT receives the value, `pc` advances (R70
steps 3, 4, 5, 7). -/
def loadPlain (frt : FprNum) (sum : Double) (s : State) : Answer :=
  loadDouble s (truncate32 sum) fun v => (s.setFpr frt v).advance

/-- A load with update from the sum of its operands: FRT receives the value, RA the updated base, `pc`
advances (R70 steps 1 and 3 to 7). -/
def loadUpdate (frt : FprNum) (ra : GprNum) (sum : Double) (s : State) : Answer :=
  requireForm s ra <|
    loadDouble s (truncate32 sum) fun v =>
      ((s.setFpr frt v).setGpr ra (raUpdate s sum)).advance

end Sys2Proof.Machine
end

