-- ==== Sys2Proof/Machine/FpLoadDouble.lean ====
section
/-!
DEFINITION. The meanings of the Load Floating-Point Double family (spec/40_fp_load_double.md), one
definition for each instruction.
-/

namespace Sys2Proof.Machine

/-- `lfd FD, d(RA0)` (R74). -/
def execLfd (frt : FprNum) (ra : GprNum) (d : Disp) (s : State) : Answer :=
  loadPlain frt (addressSum (operandRA0 s ra) (operandD d)) s

/-- `lfdu FD, d(RA)` (R75). -/
def execLfdu (frt : FprNum) (ra : GprNum) (d : Disp) (s : State) : Answer :=
  loadUpdate frt ra (addressSum (operandRA s ra) (operandD d)) s

/-- `lfdux FD, RA, RB` (R76). -/
def execLfdux (frt : FprNum) (ra rb : GprNum) (s : State) : Answer :=
  loadUpdate frt ra (addressSum (operandRA s ra) (operandRB s rb)) s

/-- `lfdx FD, RA0, RB` (R77). -/
def execLfdx (frt : FprNum) (ra rb : GprNum) (s : State) : Answer :=
  loadPlain frt (addressSum (operandRA0 s ra) (operandRB s rb)) s

end Sys2Proof.Machine
end

