-- ==== Sys2Proof/Machine/Step.lean ====
section
/-!
DEFINITION. One step of the machine (spec/70_reset_and_hazards.md R113), and the state in which a
given word is the next instruction.
-/

namespace Sys2Proof.Machine

/-- One step: fetch, decode and execute (R113). -/
def step (s : State) : Host.Outcome State Fault Refusal :=
  fetchAndRun s fun i => exec i s

/-- The state with the instruction whose bits are `w` stored where the step fetches its next
instruction, as a launch state that places a one-word program at `pc` has it (R111, log 28). -/
def State.withFetchWord (s : State) (nbits w : Nat) : State :=
  s.placeWord (tableWord nbits w)

end Sys2Proof.Machine
end

