-- ==== Sys2Proof/Machine/Reference.lean ====
section
/-!
DEFINITION. The complete step as one block, transcribed line for line from the pseudocode of
spec/70_reset_and_hazards.md R113: masks and matches instead of fields, concatenated bytes instead of
a big-endian value. The model's own step is built from shared operations; a statement says that the
two are equal.
-/

namespace Sys2Proof.Machine

/-- The kinds of the case of R113. -/
inductive LoadKind where
  | lfd
  | lfdu
  | lfdx
  | lfdux
  deriving DecidableEq, Repr

/-- The case of R113: the row a word matches under its mask (R56). -/
def kindByMask (insn : Word) : Option LoadKind :=
  if insn &&& 0xFC000000#32 = 0xC8000000#32 then some .lfd
  else if insn &&& 0xFC000000#32 = 0xCC000000#32 then some .lfdu
  else if insn &&& 0xFC0007FF#32 = 0x7C0004AE#32 then some .lfdx
  else if insn &&& 0xFC0007FF#32 = 0x7C0004EE#32 then some .lfdux
  else none

/-- The update forms: the kinds that write RA. -/
def LoadKind.updates (k : LoadKind) : Bool := k = .lfdu || k = .lfdux

/-- R113 from the decoded kind on, with the fetched word. -/
def referenceLoad (insn : Word) (kind : LoadKind) (s : State) : Answer :=
  let frt : FprNum := (insn >>> 21).setWidth 5
  let ra : GprNum := (insn >>> 16).setWidth 5
  let rb : GprNum := (insn >>> 11).setWidth 5
  let d : Disp := insn.setWidth 16
  if kind.updates && decide (ra = 0) && decide (s.config.invalidForm = .refuse) then
    .refused .invalidForm
  else if !s.msrFp then .fault .fpUnavailable
  else
    let base : Double := if !kind.updates && decide (ra = 0) then 0 else s.readGpr ra
    let offset : Double :=
      if decide (kind = .lfd) || decide (kind = .lfdu) then d.signExtend 64 else s.readGpr rb
    let sum : Double := base + offset
    let ea : Address := sum.setWidth 32
    let a : Nat := ea.toNat
    if !s.config.admits ea 8 .load then .fault (.memFault ea)
    else
      let val : Double :=
        s.mem.read a ++ s.mem.read (a + 1) ++ s.mem.read (a + 2) ++ s.mem.read (a + 3) ++
          s.mem.read (a + 4) ++ s.mem.read (a + 5) ++ s.mem.read (a + 6) ++ s.mem.read (a + 7)
      if s.pc = 0xFFFFFFFC#32 then .refused .pcWrap
      else
        let loaded := s.setFpr frt val
        let based :=
          if kind.updates then
            loaded.setGpr ra (if s.config.raUpdateFull64 then sum else ea.setWidth 64)
          else loaded
        .next (based.setPc (s.pc + 4))

/-- The whole step of R113. -/
def referenceStep (s : State) : Answer :=
  if s.pc = s.config.codeEnd then .refused .runOver
  else if s.pc &&& 3#32 ≠ 0#32 then .refused .pcMisaligned
  else if !s.config.admits s.pc 4 .fetch then .fault (.memFault s.pc)
  else
    let p : Nat := s.pc.toNat
    let insn : Word :=
      s.mem.read p ++ s.mem.read (p + 1) ++ s.mem.read (p + 2) ++ s.mem.read (p + 3)
    match kindByMask insn with
    | some kind => referenceLoad insn kind s
    | none => .refused (.notInSpec insn)

end Sys2Proof.Machine
end

