-- ==== Sys2Proof/WellFormed.lean ====
section
/-!
DEFINITION. Valid and invalid forms (spec/30_encoding.md R57, R59). Every field value of every
constructor is encodable, so the only check is the one the source makes on the operands: an update
form with RA = 0 is an invalid form.
-/

namespace Sys2Proof

/-- The instruction is a valid form: not `lfdu` or `lfdux` with RA = 0 (R57, R59). RA = RB, and FRT
equal to RA or RB as a number, are allowed (R57). -/
def Instr.wellFormed : Instr → Bool
  | .lfd _ _ _ => true
  | .lfdu _ ra _ => ra != 0
  | .lfdux _ ra _ => ra != 0
  | .lfdx _ _ _ => true

end Sys2Proof
end

