-- ==== Sys2Proof/Safety.lean ====
section
/-!
DEFINITION. The terms claims use: the end of a run and the run itself (spec/70_reset_and_hazards.md
R114), the well-formed launch (R111), the frame of an instruction (spec/10_state.md R23), and the
agreement of two states up to the high halves of the general registers (spec/20_memory.md R38).
-/

namespace Sys2Proof.Machine

/-! ## Runs (R114) -/

/-- The run is over: `pc = CODE_END`, a final state (R114). -/
abbrev State.final (s : State) : Prop := s.pc = s.config.codeEnd

/-- How a run stands after some steps. The state of a fault or a refusal is the one the stopping step
was asked in: such a step writes nothing (R96), and the effects of the steps before it stand. -/
inductive RunEnd where
  /-- The run reached `CODE_END` in this state. -/
  | final (s : State)
  /-- A step faulted in this state, which is not final (R97). -/
  | fault (s : State) (f : Fault)
  /-- A step was refused in this state, which is not final (R98). -/
  | refused (s : State) (r : Refusal)
  /-- The steps allowed are used up in this state, which is not final. -/
  | unfinished (s : State)
  deriving DecidableEq, Repr

/-- The run from a launch state, with at most the given number of steps. The word at `CODE_END` is not
fetched (R114). -/
def run : Nat → State → RunEnd
  | 0, s => if s.final then .final s else .unfinished s
  | k + 1, s =>
    if s.final then .final s
    else
      match step s with
      | .next t => run k t
      | .fault f => .fault s f
      | .refused r => .refused s r

/-- The state a run stands in. -/
def RunEnd.state : RunEnd → State
  | .final s => s
  | .fault s _ => s
  | .refused s _ => s
  | .unfinished s => s

/-! ## The launch state (R111) -/

/-- A well-formed launch state: `pc` and `CODE_END` are multiples of 4 (R111), and the bytes of memory
are listed in the canonical form. That no access past 2^32 is admitted holds of every state
(`Config.admits`). -/
abbrev State.launchOk (s : State) : Prop :=
  s.pc.toNat % 4 = 0 ∧ s.config.codeEnd.toNat % 4 = 0 ∧ s.mem.wf

/-! ## When an instruction completes (R70) -/

/-- `MemRead(a, 8)` as R31 writes it: eight bytes concatenated, the byte at `a` most significant. -/
def memRead8 (m : Memory) (a : Nat) : Double :=
  m.read a ++ m.read (a + 1) ++ m.read (a + 2) ++ m.read (a + 3) ++
    m.read (a + 4) ++ m.read (a + 5) ++ m.read (a + 6) ++ m.read (a + 7)

/-- The fetched word as R39 writes it: four bytes concatenated, the byte at `a` most significant. -/
def memRead4 (m : Memory) (a : Nat) : Word :=
  m.read a ++ m.read (a + 1) ++ m.read (a + 2) ++ m.read (a + 3)

/-- The step at `s` comes to the instruction `i`: the run is not over, `pc` is a multiple of 4, the
fetch is admitted and the word at `pc` decodes to `i` (R113). -/
abbrev fetches (s : State) (i : Instr) : Prop :=
  s.pc ≠ s.config.codeEnd ∧ s.pc.toNat % 4 = 0 ∧ s.config.admits s.pc 4 .fetch = true ∧
    decode (memRead4 s.mem s.pc.toNat) = .ok i

/-- The form is one the policy lets through (R59). -/
abbrev formAllowed (i : Instr) (s : State) : Prop :=
  i.wellFormed = true ∨ s.config.invalidForm = .asInterpreter

/-- The 64-bit sum the instruction forms its address from (R38), with the operands of R55. -/
def sumOf (s : State) : Instr → Double
  | .lfd _ ra d => addressSum (operandRA0 s ra) (operandD d)
  | .lfdu _ ra d => addressSum (operandRA s ra) (operandD d)
  | .lfdux _ ra rb => addressSum (operandRA s ra) (operandRB s rb)
  | .lfdx _ ra rb => addressSum (operandRA0 s ra) (operandRB s rb)

/-- The effective address of the instruction (R38). -/
def addressOf (s : State) (i : Instr) : Address := truncate32 (sumOf s i)

/-- Nothing stops the instruction: its form is allowed, MSR[FP] is 1, its 8-byte read is admitted and
`pc + 4` has a value (R70). -/
abbrev completes (i : Instr) (s : State) : Prop :=
  formAllowed i s ∧ s.msrFp = true ∧ s.config.admits (addressOf s i) 8 .load = true ∧
    s.pc ≠ 0xFFFFFFFC#32

/-! ## Frames (R12, R13, R23) -/

/-- The floating-point register an instruction writes: FD (R13). -/
def fdOf : Instr → FprNum
  | .lfd frt _ _ => frt
  | .lfdu frt _ _ => frt
  | .lfdux frt _ _ => frt
  | .lfdx frt _ _ => frt

/-- The general register an instruction writes: RA in the update forms, none in the others (R12). -/
def updatedBase : Instr → Option GprNum
  | .lfd _ _ _ => none
  | .lfdu _ ra _ => some ra
  | .lfdux _ ra _ => some ra
  | .lfdx _ _ _ => none

/-- The register number in an instruction's RA field (R52, R53). -/
def baseOf : Instr → GprNum
  | .lfd _ ra _ => ra
  | .lfdu _ ra _ => ra
  | .lfdux _ ra _ => ra
  | .lfdx _ ra _ => ra

/-- The offset an instruction adds to its base: the sign-extended displacement (R54), or register RB
(R55). -/
def offsetOf (s : State) : Instr → Double
  | .lfd _ _ d => operandD d
  | .lfdu _ _ d => operandD d
  | .lfdux _ _ rb => operandRB s rb
  | .lfdx _ _ rb => operandRB s rb

/-- The general registers an instruction reads (R12): RA in the update forms; RA, when its field is
not 0, in the others; RB in the indexed forms. -/
def readsOf : Instr → List GprNum
  | .lfd _ ra _ => if ra = 0 then [] else [ra]
  | .lfdu _ ra _ => [ra]
  | .lfdux _ ra rb => [ra, rb]
  | .lfdx _ ra rb => if ra = 0 then [rb] else [ra, rb]

/-- Everything but one floating-point register, at most one general register and `pc` is as before:
every other register of both files, MSR[FP], every byte of memory and the launch parameters (R23). -/
abbrev sameBut (fd : FprNum) (base : Option GprNum) (s t : State) : Prop :=
  (∀ n, n ≠ fd → t.readFpr n = s.readFpr n) ∧
    (∀ n, base ≠ some n → t.readGpr n = s.readGpr n) ∧
      t.msrFp = s.msrFp ∧ t.config = s.config ∧ ∀ a, t.mem.read a = s.mem.read a

/-! ## Agreement up to the high halves of the general registers (R38, R73) -/

/-- The two states are the same but for the high 32 bits of the general registers and the setting of
`RA_UPDATE_FULL64`. -/
abbrev lowHalvesAgree (s t : State) : Prop :=
  s.pc = t.pc ∧ s.fpr = t.fpr ∧ s.msrFp = t.msrFp ∧ s.mem = t.mem ∧
    s.config.regions = t.config.regions ∧ s.config.codeEnd = t.config.codeEnd ∧
      s.config.invalidForm = t.config.invalidForm ∧
        ∀ n, (s.readGpr n).setWidth 32 = (t.readGpr n).setWidth 32

/-- Two answers are of the same kind, with related next states or the same reason. -/
def answersAgree (rel : State → State → Prop) : Answer → Answer → Prop
  | .next s, .next t => rel s t
  | .fault f, .fault g => f = g
  | .refused p, .refused q => p = q
  | _, _ => False

/-- Two runs stand the same way, in related states and with the same reason. -/
def runsAgree (rel : State → State → Prop) : RunEnd → RunEnd → Prop
  | .final s, .final t => rel s t
  | .fault s f, .fault t g => rel s t ∧ f = g
  | .refused s p, .refused t q => rel s t ∧ p = q
  | .unfinished s, .unfinished t => rel s t
  | _, _ => False

end Sys2Proof.Machine
end

