-- ==== Sys2Proof/Certificates/Slice0/Obligations.lean ====
section
/-!
DEFINITION. The statements for the provers, in the order of OBLIGATIONS.json. None is about a
program; each speaks of every state, or of every state that meets the premises written in it.
-/

open Sys2Proof Sys2Proof.Machine

/-! ## Encoding -/

/-- Decoding the word of any instruction gives the instruction back, every field at every value, and
so does decoding its four bytes, most significant first, with whatever follows them (R52, R53). -/
def Obligations.DecodeInvertsEncode : Prop :=
  ∀ i : Instr, decode (encode i) = .ok i ∧
    ∀ rest, decodeBytes (bytesOfWord (encode i) ++ rest) = .ok (i, rest)

/-- A word that decodes is the word of what it decodes to: the decoder ignores no bit. -/
def Obligations.EncodeInvertsDecode : Prop :=
  ∀ (w : Word) (i : Instr), decode w = .ok i → encode i = w

/-- R56 whole: the mask and the match of each row, with the fields of R52 and R53; the opcode words as
the instructions with every operand field zero; the checks of the words against the opcodes; and the
invalid forms, which match a row and are then rejected by the value of RA (under the policy
`refuse`). -/
def Obligations.DecodeIsMaskAndMatch : Prop :=
  (∀ (w : Word) frt ra d, decode w = .ok (.lfd frt ra d) ↔
      w &&& 0xFC000000#32 = 0xC8000000#32 ∧ frt = w.extractLsb' 21 5 ∧ ra = w.extractLsb' 16 5 ∧
        d = w.extractLsb' 0 16) ∧
    (∀ (w : Word) frt ra d, decode w = .ok (.lfdu frt ra d) ↔
      w &&& 0xFC000000#32 = 0xCC000000#32 ∧ frt = w.extractLsb' 21 5 ∧ ra = w.extractLsb' 16 5 ∧
        d = w.extractLsb' 0 16) ∧
    (∀ (w : Word) frt ra rb, decode w = .ok (.lfdx frt ra rb) ↔
      w &&& 0xFC0007FF#32 = 0x7C0004AE#32 ∧ frt = w.extractLsb' 21 5 ∧ ra = w.extractLsb' 16 5 ∧
        rb = w.extractLsb' 11 5) ∧
    (∀ (w : Word) frt ra rb, decode w = .ok (.lfdux frt ra rb) ↔
      w &&& 0xFC0007FF#32 = 0x7C0004EE#32 ∧ frt = w.extractLsb' 21 5 ∧ ra = w.extractLsb' 16 5 ∧
        rb = w.extractLsb' 11 5) ∧
    (encode (.lfd 0 0 0) = 0xC8000000#32 ∧ encode (.lfdu 0 0 0) = 0xCC000000#32 ∧
      encode (.lfdx 0 0 0) = 0x7C0004AE#32 ∧ encode (.lfdux 0 0 0) = 0x7C0004EE#32) ∧
    (50#32 <<< 26 = 0xC8000000#32 ∧ 51#32 <<< 26 = 0xCC000000#32 ∧
      (31#32 <<< 26 ||| 599#32 <<< 1) = 0x7C0004AE#32 ∧
        (31#32 <<< 26 ||| 631#32 <<< 1) = 0x7C0004EE#32) ∧
    (∀ (s : State) frt d rb, s.config.invalidForm = .refuse →
      exec (.lfdu frt 0 d) s = .refused .invalidForm ∧
        exec (.lfdux frt 0 rb) s = .refused .invalidForm)

/-- A word that matches no row is not decoded, in particular a form X word with source bit 31 set, and
the step that fetches it is refused with the reason `notInSpec`. That it is refused rather than called
illegal is the spec's own choice (92_eei_decisions.md D9, D24; log 16, 17). -/
def Obligations.WordOutsideTheTableIsRefused : Prop :=
  (∀ w : Word, w &&& 0xFC000000#32 ≠ 0xC8000000#32 → w &&& 0xFC000000#32 ≠ 0xCC000000#32 →
      w &&& 0xFC0007FF#32 ≠ 0x7C0004AE#32 → w &&& 0xFC0007FF#32 ≠ 0x7C0004EE#32 →
        decode w = .error (.notInSpec w) ∧
          ∀ s : State, s.pc ≠ s.config.codeEnd → s.pc.toNat % 4 = 0 →
            s.config.admits s.pc 4 .fetch = true → memRead4 s.mem s.pc.toNat = w →
              step s = .refused (.notInSpec w)) ∧
    ∀ w : Word, w.extractLsb' 26 6 = 31#6 → w.getLsbD 0 = true → decode w = .error (.notInSpec w)

/-- Words written out from the spec's encoding decode to the instructions they stand for. The fifth
word is the fourth with source bit 31 set: that it is no instruction, and is rejected as not in the
spec rather than called illegal, is the spec's own choice (92_eei_decisions.md D9, D24; log 16, 17). -/
def Obligations.WrittenOutWordsDecode : Prop :=
  decode 0xC843FFF8#32 = .ok (.lfd 2#5 3#5 0xFFF8#16) ∧
    decode 0xCC240008#32 = .ok (.lfdu 1#5 4#5 0x0008#16) ∧
    decode 0x7CA63CEE#32 = .ok (.lfdux 5#5 6#5 7#5) ∧
    decode 0x7C2324AE#32 = .ok (.lfdx 1#5 3#5 4#5) ∧
    decode 0x7C2324AF#32 = .error (.notInSpec 0x7C2324AF#32)

/-! ## Operands and addresses -/

/-- R54 whole: the displacement is the low 16 bits of the word, read as a two's-complement number from
-32768 to 32767, used sign-extended (its top bit fills bits 63 to 16) and not scaled: the operand's
value is the number itself, and every number of the range is the displacement of some word. -/
def Obligations.DisplacementIsSignedAndUnscaled : Prop :=
  (∀ (w : Word) (k : Nat), k < 16 → (dField w).getLsbD k = w.getLsbD k) ∧
    (∀ d : Disp, -32768 ≤ d.toInt ∧ d.toInt ≤ 32767 ∧ (operandD d).toInt = d.toInt) ∧
    (∀ (d : Disp) (k : Nat), 16 ≤ k → k < 64 → (operandD d).getLsbD k = d.getLsbD 15) ∧
    ∀ (frt : FprNum) (ra : GprNum) (x : Int), -32768 ≤ x → x ≤ 32767 →
      ∃ d : Disp, (operandD d).toInt = x ∧
        decode (encode (.lfd frt ra d)) = .ok (.lfd frt ra d) ∧
          decode (encode (.lfdu frt ra d)) = .ok (.lfdu frt ra d)

/-- The effective address is the low 32 bits of the sum modulo 2^64, which is the sum modulo 2^32 of
the low halves; so the high halves of base and offset have no effect on it (R38). -/
def Obligations.AddressIsTheSumOfLowHalves : Prop :=
  ∀ base offset : Double,
    (truncate32 (addressSum base offset)).toNat = (base.toNat + offset.toNat) % 2 ^ 32 ∧
      truncate32 (addressSum base offset) = base.setWidth 32 + offset.setWidth 32 ∧
        ∀ base' offset' : Double, base'.setWidth 32 = base.setWidth 32 →
          offset'.setWidth 32 = offset.setWidth 32 →
            truncate32 (addressSum base' offset') = truncate32 (addressSum base offset)

/-- In `lfd` and `lfdx` a zero in the RA field is the literal zero and not `r0`: they load from the low
32 bits of the offset alone, and with any other value in `r0` they answer the same way and with the
same registers but `r0` itself. In `lfdx` and `lfdux` a zero in the RB field is `r0`: they load from the
base plus `r0` (R11, R55; the value in RA is the parameter of D3, log 11). -/
def Obligations.LiteralZeroBaseIgnoresRegisterZero : Prop :=
  (∀ (s : State) (frt : FprNum) (d : Disp) (ea : Address), ea = (d.signExtend 64).setWidth 32 →
      s.msrFp = true → s.config.admits ea 8 .load = true → s.pc ≠ 0xFFFFFFFC#32 →
        ∃ t, exec (.lfd frt 0 d) s = .next t ∧ t.readFpr frt = memRead8 s.mem ea.toNat) ∧
    (∀ (s : State) (frt : FprNum) (rb : GprNum) (ea : Address), ea = (s.readGpr rb).setWidth 32 →
      s.msrFp = true → s.config.admits ea 8 .load = true → s.pc ≠ 0xFFFFFFFC#32 →
        ∃ t, exec (.lfdx frt 0 rb) s = .next t ∧ t.readFpr frt = memRead8 s.mem ea.toNat) ∧
    (∀ (s : State) (v : Double) (frt : FprNum) (d : Disp),
      answersAgree (fun t t' => t' = t.setGpr 0 v)
        (exec (.lfd frt 0 d) s) (exec (.lfd frt 0 d) (s.setGpr 0 v))) ∧
    (∀ (s : State) (v : Double) (frt : FprNum) (rb : GprNum), rb ≠ 0 →
      answersAgree (fun t t' => t' = t.setGpr 0 v)
        (exec (.lfdx frt 0 rb) s) (exec (.lfdx frt 0 rb) (s.setGpr 0 v))) ∧
    (∀ (s : State) (frt : FprNum) (ra : GprNum) (ea : Address), ra ≠ 0 →
      ea = (s.readGpr ra + s.readGpr 0).setWidth 32 →
        s.msrFp = true → s.config.admits ea 8 .load = true → s.pc ≠ 0xFFFFFFFC#32 →
          ∃ t, exec (.lfdx frt ra 0) s = .next t ∧ t.readFpr frt = memRead8 s.mem ea.toNat) ∧
    ∀ (s : State) (frt : FprNum) (ra : GprNum) (sum : Double) (ea : Address),
      sum = s.readGpr ra + s.readGpr 0 → ea = sum.setWidth 32 →
        (ra ≠ 0 ∨ s.config.invalidForm = .asInterpreter) → s.msrFp = true →
          s.config.admits ea 8 .load = true → s.pc ≠ 0xFFFFFFFC#32 →
            ∃ t, exec (.lfdux frt ra 0) s = .next t ∧ t.readFpr frt = memRead8 s.mem ea.toNat ∧
              t.readGpr ra = (if s.config.raUpdateFull64 then sum else ea.setWidth 64)

/-! ## Memory -/

/-- R31 whole: data is big-endian. The 8-byte read is the concatenation of its bytes with the byte at
the address most significant, and a read of any width `n` has the byte at `a + k` in bits
`8(n-1-k)+7` down to `8(n-1-k)`. -/
def Obligations.ReadsAreBigEndian : Prop :=
  (∀ (m : Memory) (a : Nat), m.read64 a = memRead8 m a) ∧
    ∀ (m : Memory) (a n k : Nat), k < n →
      m.readBE a n < 2 ^ (8 * n) ∧
        m.readBE a n / 2 ^ (8 * (n - 1 - k)) % 2 ^ 8 = (m.read (a + k)).toNat

/-- The 4-byte fetch at an address and an 8-byte load at the same address share their first four
bytes, in the same order: the fetched word is the high half of the loaded value, and the word at
`a + 4` the low half. That instructions are fetched from the loads' memory in the loads' byte order is
the spec's own choice, which it marks as general knowledge (92_eei_decisions.md D7; log 15,
PRESUMED). -/
def Obligations.FetchAndLoadShareBytes : Prop :=
  ∀ (m : Memory) (a : Nat), (m.read64 a).extractLsb' 32 32 = m.read32 a ∧
    (m.read64 a).extractLsb' 0 32 = m.read32 (a + 4) ∧ m.read32 a = memRead4 m a

/-- Two memories in canonical form that read the same at every address of the space are equal. -/
def Obligations.EqualReadsMeanEqualMemories : Prop :=
  ∀ m m' : Memory, m.wf → m'.wf → (∀ a < 2 ^ 32, m.read a = m'.read a) → m = m'

/-- Every contents of the 2^32 bytes is a memory of the model, in canonical form: `Mem0` of R22 is
unrestricted. -/
def Obligations.EveryContentsIsAMemory : Prop :=
  ∀ f : Nat → Byte, ∃ m : Memory, m.wf ∧ ∀ a < 2 ^ 32, m.read a = f a

/-- Every admission predicate on the two accesses the machine makes is the one of some list of ranges,
but for the accesses past the top that R37 rules out: `Admit` of R36 is unrestricted. -/
def Obligations.EveryAdmissionIsAListOfRanges : Prop :=
  ∀ fetch load : Nat → Bool, ∃ regions : List Region, ∀ c : Config, c.regions = regions →
    ∀ a : Address,
      c.admits a 4 .fetch = (fetch a.toNat && decide (a.toNat + 4 ≤ 2 ^ 32)) ∧
        c.admits a 8 .load = (load a.toNat && decide (a.toNat + 8 ≤ 2 ^ 32))

/-- A list of bytes written inside the address space reads back byte by byte, every other byte is as
before, and the canonical form is kept. -/
def Obligations.WrittenBytesReadBack : Prop :=
  ∀ (m : Memory) (a : Nat) (bs : List Byte), m.wf → a + bs.length ≤ 2 ^ 32 →
    (m.writeBytes a bs).wf ∧
      ∀ x, (m.writeBytes a bs).read x =
        if a ≤ x ∧ x < a + bs.length then bs.getD (x - a) 0 else m.read x

/-! ## What each instruction does -/

/-- `lfd` completes, whatever its operands, when MSR[FP] is 1, its read is admitted and `pc + 4` has a
value: FD receives the eight bytes at the effective address, the base is register RA or the literal
zero, no general register is written, `pc` advances by 4 and all else is as before (R74). -/
def Obligations.LfdLoadsItsDouble : Prop :=
  ∀ (s : State) (frt : FprNum) (ra : GprNum) (d : Disp) (ea : Address),
    ea = ((if ra = 0 then 0 else s.readGpr ra) + d.signExtend 64).setWidth 32 →
      s.msrFp = true → s.config.admits ea 8 .load = true → s.pc ≠ 0xFFFFFFFC#32 →
        ∃ t, exec (.lfd frt ra d) s = .next t ∧ t.readFpr frt = memRead8 s.mem ea.toNat ∧
          t.pc = s.pc + 4 ∧ sameBut frt none s t

/-- `lfdu` completes when moreover its form is allowed: FD receives the eight bytes at the effective
address formed from the old RA, RA receives that address zero-extended (or, with `RA_UPDATE_FULL64`,
the whole sum), `pc` advances by 4 and all else is as before (R73, R75). -/
def Obligations.LfduLoadsAndUpdatesItsBase : Prop :=
  ∀ (s : State) (frt : FprNum) (ra : GprNum) (d : Disp) (sum : Double) (ea : Address),
    sum = s.readGpr ra + d.signExtend 64 → ea = sum.setWidth 32 →
      (ra ≠ 0 ∨ s.config.invalidForm = .asInterpreter) → s.msrFp = true →
        s.config.admits ea 8 .load = true → s.pc ≠ 0xFFFFFFFC#32 →
          ∃ t, exec (.lfdu frt ra d) s = .next t ∧ t.readFpr frt = memRead8 s.mem ea.toNat ∧
            t.readGpr ra = (if s.config.raUpdateFull64 then sum else ea.setWidth 64) ∧
              t.pc = s.pc + 4 ∧ sameBut frt (some ra) s t

/-- `lfdux` completes under the same conditions, with register RB as the offset: both registers are
read before RA is written, RB = 0 is `r0` and RA = RB is allowed (R73, R76). -/
def Obligations.LfduxLoadsAndUpdatesItsBase : Prop :=
  ∀ (s : State) (frt : FprNum) (ra rb : GprNum) (sum : Double) (ea : Address),
    sum = s.readGpr ra + s.readGpr rb → ea = sum.setWidth 32 →
      (ra ≠ 0 ∨ s.config.invalidForm = .asInterpreter) → s.msrFp = true →
        s.config.admits ea 8 .load = true → s.pc ≠ 0xFFFFFFFC#32 →
          ∃ t, exec (.lfdux frt ra rb) s = .next t ∧ t.readFpr frt = memRead8 s.mem ea.toNat ∧
            t.readGpr ra = (if s.config.raUpdateFull64 then sum else ea.setWidth 64) ∧
              t.pc = s.pc + 4 ∧ sameBut frt (some ra) s t

/-- `lfdx` completes as `lfd` does, with register RB as the offset; RB = 0 is `r0` (R77). -/
def Obligations.LfdxLoadsItsDouble : Prop :=
  ∀ (s : State) (frt : FprNum) (ra rb : GprNum) (ea : Address),
    ea = ((if ra = 0 then 0 else s.readGpr ra) + s.readGpr rb).setWidth 32 →
      s.msrFp = true → s.config.admits ea 8 .load = true → s.pc ≠ 0xFFFFFFFC#32 →
        ∃ t, exec (.lfdx frt ra rb) s = .next t ∧ t.readFpr frt = memRead8 s.mem ea.toNat ∧
          t.pc = s.pc + 4 ∧ sameBut frt none s t

/-- The registers each instruction reads and writes, from the table of R12. It reads only the general
registers of its row: two states that agree on those, on `pc`, MSR[FP], memory and the launch
parameters, and differ in any other register of either file, give the same answer, with the same value
in FD and in the register updated. It writes only FD, in the update forms RA, and `pc`. And it does
read and write them: whenever nothing stops it, FD receives the double at the sum of the operands of
its row, and in the update forms RA receives that address, or the whole sum under `RA_UPDATE_FULL64`.
The width of the address and the value in RA are the spec's own decision (92_eei_decisions.md D3; log
11, 23), so the statement is derived. -/
def Obligations.ReadsAndWritesOnlyItsOperands : Prop :=
  (∀ (i : Instr) (s t : State), s.pc = t.pc → s.msrFp = t.msrFp → s.mem = t.mem →
      s.config = t.config → (∀ n ∈ readsOf i, s.readGpr n = t.readGpr n) →
        answersAgree (fun s' t' => s'.readFpr (fdOf i) = t'.readFpr (fdOf i) ∧
          ∀ n, updatedBase i = some n → s'.readGpr n = t'.readGpr n) (exec i s) (exec i t)) ∧
    (∀ (i : Instr) (s t : State), exec i s = .next t → sameBut (fdOf i) (updatedBase i) s t) ∧
    (∀ (i : Instr) (s : State), completes i s →
      ∃ t, exec i s = .next t ∧ t.readFpr (fdOf i) = memRead8 s.mem (addressOf s i).toNat ∧
        ∀ n, updatedBase i = some n →
          t.readGpr n =
            (if s.config.raUpdateFull64 then sumOf s i else (addressOf s i).setWidth 64)) ∧
    ∀ (s : State) (frt : FprNum) (ra rb : GprNum) (d : Disp),
      sumOf s (.lfd frt ra d) = (if ra = 0 then 0 else s.readGpr ra) + d.signExtend 64 ∧
        sumOf s (.lfdu frt ra d) = s.readGpr ra + d.signExtend 64 ∧
        sumOf s (.lfdux frt ra rb) = s.readGpr ra + s.readGpr rb ∧
        sumOf s (.lfdx frt ra rb) = (if ra = 0 then 0 else s.readGpr ra) + s.readGpr rb

/-- R35 and R93 whole: the 8-byte read needs no alignment. Whatever the effective address, a multiple
of 8 or not, an instruction nothing else stops is performed on the 8 consecutive bytes from that
address; and the only faults an instruction answers with are Floating-Point Unavailable when MSR[FP]
is 0 and the memory fault of a read that is not admitted: no address raises an alignment exception. -/
def Obligations.MisalignedLoadIsPerformed : Prop :=
  (∀ (i : Instr) (s : State), completes i s →
      ∃ t, exec i s = .next t ∧ t.readFpr (fdOf i) = memRead8 s.mem (addressOf s i).toNat) ∧
    ∀ (i : Instr) (s : State) (f : Fault), exec i s = .fault f →
      (f = .fpUnavailable ∧ s.msrFp = false) ∨
        (f = .memFault (addressOf s i) ∧ s.config.admits (addressOf s i) 8 .load = false)

/-- Every 64-bit pattern is loaded unchanged, signalling NaNs and zeros of either sign included: when
the eight bytes of the pattern, most significant first, are at the effective address, FD receives
exactly that pattern (R71). -/
def Obligations.EveryPatternLoadsUnchanged : Prop :=
  ∀ (i : Instr) (s : State) (v : Double), completes i s →
    (∀ k < 8, s.mem.read ((addressOf s i).toNat + k) = v.extractLsb' (56 - 8 * k) 8) →
      ∃ t, exec i s = .next t ∧ t.readFpr (fdOf i) = v

/-! ## Stops -/

/-- R90 whole: when MSR[FP] is 0 each of the four instructions answers with Floating-Point Unavailable,
whatever its operands and whether or not its read is admitted, and no state is written: the run stands
in the state the step was asked in. (The premise on the form is R95's order: an invalid form under the
policy `refuse` is refused first.) -/
def Obligations.DisabledUnitRaisesUnavailable : Prop :=
  (∀ (i : Instr) (s : State), s.msrFp = false → formAllowed i s → exec i s = .fault .fpUnavailable) ∧
    ∀ (i : Instr) (s : State) (k : Nat), s.msrFp = false → formAllowed i s → fetches s i →
      run (k + 1) s = .fault s .fpUnavailable

/-- No instruction completes unless MSR[FP] is 1, no step changes it, and so a run launched with
MSR[FP] = 0 never leaves its launch state (R17, R112). -/
def Obligations.NothingRunsWithTheUnitDisabled : Prop :=
  (∀ s t : State, step s = .next t → s.msrFp = true ∧ t.msrFp = true) ∧
    ∀ (k : Nat) (s : State), s.msrFp = false → (run k s).state = s

/-- `lfdu` and `lfdux` with RA = 0 under the two policies: refused, or executed with register `r0`
(not the literal zero) as the base and as the register updated. The choice is the parameter of the
spec's own decision D10 (log 10). -/
def Obligations.InvalidFormFollowsThePolicy : Prop :=
  (∀ (i : Instr) (s : State), i.wellFormed = false → s.config.invalidForm = .refuse →
      exec i s = .refused .invalidForm) ∧
    (∀ (i : Instr) (s : State), i.wellFormed = true → exec i s ≠ .refused .invalidForm) ∧
    (∀ (s : State) (frt : FprNum) (d : Disp), s.config.invalidForm = .asInterpreter →
      completes (.lfdu frt 0 d) s →
        ∃ t, exec (.lfdu frt 0 d) s = .next t ∧
          t.readFpr frt = memRead8 s.mem ((s.readGpr 0 + d.signExtend 64).setWidth 32).toNat ∧
            (s.config.raUpdateFull64 = false →
              t.readGpr 0 = ((s.readGpr 0 + d.signExtend 64).setWidth 32).setWidth 64)) ∧
    ∀ (s : State) (frt : FprNum) (rb : GprNum), s.config.invalidForm = .asInterpreter →
      completes (.lfdux frt 0 rb) s →
        ∃ t, exec (.lfdux frt 0 rb) s = .next t ∧
          t.readFpr frt = memRead8 s.mem ((s.readGpr 0 + s.readGpr rb).setWidth 32).toNat ∧
            (s.config.raUpdateFull64 = false →
              t.readGpr 0 = ((s.readGpr 0 + s.readGpr rb).setWidth 32).setWidth 64)

/-- The order in which one step reports its events: `pc` misaligned, fetch not admitted, word not in
the spec, invalid form, Floating-Point Unavailable, read not admitted, `pc` wrapping. The order is the
spec's own choice (92_eei_decisions.md D14; log 20). -/
def Obligations.FirstEventInOrderIsReported : Prop :=
  ∀ s : State, s.pc ≠ s.config.codeEnd →
    (s.pc.toNat % 4 ≠ 0 → step s = .refused .pcMisaligned) ∧
      (s.pc.toNat % 4 = 0 → s.config.admits s.pc 4 .fetch = false →
        step s = .fault (.memFault s.pc)) ∧
      (∀ i, fetches s i → ¬ formAllowed i s → step s = .refused .invalidForm) ∧
      (∀ i, fetches s i → formAllowed i s → s.msrFp = false → step s = .fault .fpUnavailable) ∧
      (∀ i, fetches s i → formAllowed i s → s.msrFp = true →
        s.config.admits (addressOf s i) 8 .load = false →
          step s = .fault (.memFault (addressOf s i))) ∧
      (∀ i, fetches s i → formAllowed i s → s.msrFp = true →
        s.config.admits (addressOf s i) 8 .load = true → s.pc = 0xFFFFFFFC#32 →
          step s = .refused .pcWrap)

/-- No access that runs past the top of the address space is admitted, so a load at an address above
`0xFFFF_FFF8` faults with that address and does not wrap, while the last aligned fetch and the last
8-byte read fit wherever a range of the launch covers them. That it faults is the spec's own choice
(92_eei_decisions.md D18; log 13). -/
def Obligations.AccessPastTheTopFaults : Prop :=
  (∀ (c : Config) (a : Address) (n : Nat) (kind : Access), 2 ^ 32 < a.toNat + n →
      c.admits a n kind = false) ∧
    (∀ (i : Instr) (s : State), formAllowed i s → s.msrFp = true →
      0xFFFFFFF8 < (addressOf s i).toNat → exec i s = .fault (.memFault (addressOf s i))) ∧
    ∀ (c : Config) (r : Region), r ∈ c.regions → r.base ≤ 0xFFFFFFF8 → 2 ^ 32 ≤ r.base + r.size →
      (r.fetch = true → c.admits 0xFFFFFFFC#32 4 .fetch = true) ∧
        (r.load = true → c.admits 0xFFFFFFF8#32 8 .load = true)

/-! ## The step and the run -/

/-- When the bytes at `pc` decode to an instruction, the step is that instruction's meaning in that
state, with nothing added (R113). -/
def Obligations.StepRunsTheDecodedInstruction : Prop :=
  ∀ (s : State) (i : Instr), s.pc ≠ s.config.codeEnd → s.pc.toNat % 4 = 0 →
    s.config.admits s.pc 4 .fetch = true → decode (memRead4 s.mem s.pc.toNat) = .ok i →
      step s = exec i s

/-- R23 whole: a step that answers a next state ran the instruction at `pc`, and changes only the
floating-point register it writes, for the update forms one general register, and `pc`. -/
def Obligations.StepChangesOnlyWhatIsListed : Prop :=
  ∀ s t : State, step s = .next t →
    ∃ i, fetches s i ∧ completes i s ∧ sameBut (fdOf i) (updatedBase i) s t ∧ t.pc = s.pc + 4

/-- The step built from shared operations is the one block of pseudocode of R113. Two parts of that are
choices: both sides answer at `CODE_END` with the refusal `runOver`, which is the model's (log 9), and
both test the events in the order of R95, which is the spec's own choice (92_eei_decisions.md D14; log
20). -/
def Obligations.StepIsTheReferenceStep : Prop :=
  ∀ s : State, step s = referenceStep s

/-- Every step keeps the launch state well formed: `pc` and `CODE_END` multiples of 4 and memory in
canonical form. -/
def Obligations.EveryStepKeepsLaunchWellFormed : Prop :=
  ∀ s t : State, s.launchOk → step s = .next t → t.launchOk

/-- The reset state is a well-formed launch, with the policies at the defaults of R5. Its other values
are the model's own choice (log 1 to 8). -/
def Obligations.ResetIsAWellFormedLaunch : Prop :=
  State.reset.launchOk ∧ State.reset.config.invalidForm = .refuse ∧
    State.reset.config.raUpdateFull64 = false

/-- No instruction writes memory, so in the model memory is constant during a run (R34). That nothing
else writes it is the spec's own choice of one agent (R42; 92_eei_decisions.md D11; log 21): the
statement is limited to runs without other writers, and says nothing of a run in which another agent
writes memory. -/
def Obligations.MemoryIsConstantDuringARun : Prop :=
  (∀ (i : Instr) (s t : State), exec i s = .next t → t.mem = s.mem) ∧
    ∀ (k : Nat) (s : State), (run k s).state.mem = s.mem

/-- No run from a well-formed launch is ever refused for a misaligned `pc`: a run that starts at a
multiple of 4 stays at one (R40). That a misaligned `pc` is refused is the spec's own choice
(92_eei_decisions.md D8; log 14). -/
def Obligations.AlignedLaunchStaysAligned : Prop :=
  ∀ (k : Nat) (s : State), s.launchOk →
    (run k s).state.pc.toNat % 4 = 0 ∧ ∀ t, run k s ≠ .refused t .pcMisaligned

/-- `pc` never wraps: each step adds exactly 4 to it as a number, and a run that is over stands at
`CODE_END` after going up by 4 for each step (R16, R114). That the wrap is refused is the spec's own
choice (92_eei_decisions.md D5; log 14). -/
def Obligations.ProgramCounterNeverWraps : Prop :=
  (∀ s t : State, step s = .next t → t.pc.toNat = s.pc.toNat + 4) ∧
    ∀ (k : Nat) (s t : State), run k s = .final t →
      t.pc = s.config.codeEnd ∧ ∃ n ≤ k, t.pc.toNat = s.pc.toNat + 4 * n

/-- At `CODE_END` there is no step, whatever word stands there: the run is over in that state after
zero steps. That the model's step answers with the refusal `runOver` is its own choice (log 9). -/
def Obligations.NoStepAtTheEndOfTheRun : Prop :=
  ∀ s : State, s.pc = s.config.codeEnd → step s = .refused .runOver ∧ ∀ k, run k s = .final s

/-- A word placed where the step fetches is the next instruction run, from any aligned `pc`, and no
register and no byte outside the word changes by placing it. -/
def Obligations.PlacedWordIsRunNext : Prop :=
  ∀ (s : State) (i : Instr), s.launchOk →
    step (s.withFetchWord 32 (encode i).toNat) = exec i (s.withFetchWord 32 (encode i).toNat) ∧
      (s.withFetchWord 32 (encode i).toNat).gpr = s.gpr ∧
        (s.withFetchWord 32 (encode i).toNat).fpr = s.fpr ∧
          (s.withFetchWord 32 (encode i).toNat).pc = s.pc ∧
            (s.withFetchWord 32 (encode i).toNat).msrFp = s.msrFp ∧
              ∀ a, a < s.pc.toNat ∨ s.pc.toNat + 4 ≤ a →
                (s.withFetchWord 32 (encode i).toNat).mem.read a = s.mem.read a

/-- The base an update form writes is the base of the very next instruction, with no hazard between
them (R115): `lfdu` or `lfdux` over RA, followed by any of the four instructions with the same register
in its RA field (not 0, unless that is an update form the policy lets through). The second instruction
loads from the updated base plus its offset, an offset register that is RA itself holding the updated
base too; a second update form updates RA again; the first FD keeps its double unless the second
instruction loads it again at once; and no other register changes. That there is no hazard is the
spec's own choice (92_eei_decisions.md D20; log 27), and so is the value of the update (D3; log 11). -/
def Obligations.UpdatedBaseFeedsTheNextLoad : Prop :=
  ∀ (s t : State) (i j : Instr) (ra : GprNum) (base sum : Double), updatedBase i = some ra →
    baseOf j = ra → (ra ≠ 0 ∨ updatedBase j = some ra) →
      fetches s i → step s = .next t → fetches t j →
        base = (if s.config.raUpdateFull64 then sumOf s i else (addressOf s i).setWidth 64) →
          sum = base + offsetOf (s.setGpr ra base) j →
            s.config.admits (sum.setWidth 32) 8 .load = true → t.pc ≠ 0xFFFFFFFC#32 →
              ∃ u, step t = .next u ∧
                u.readFpr (fdOf j) = memRead8 s.mem (sum.setWidth 32).toNat ∧
                (fdOf j ≠ fdOf i →
                  u.readFpr (fdOf i) = memRead8 s.mem (addressOf s i).toNat) ∧
                u.readGpr ra =
                  (if updatedBase j = none then base
                    else if s.config.raUpdateFull64 then sum
                      else (sum.setWidth 32).setWidth 64) ∧
                (∀ n, n ≠ ra → u.readGpr n = s.readGpr n) ∧
                (∀ n, n ≠ fdOf i → n ≠ fdOf j → u.readFpr n = s.readFpr n) ∧
                u.pc = s.pc + 8

/-! ## The two settings of the base update, and the high halves -/

/-- Two states that are the same but for the high halves of the general registers and the setting of
`RA_UPDATE_FULL64` answer a step the same way: the same fault or refusal, or next states that are
again the same but for those; so every loaded value, every address and every stop is the same. -/
def Obligations.HighHalvesNeverMatterToAStep : Prop :=
  ∀ s t : State, lowHalvesAgree s t → answersAgree lowHalvesAgree (step s) (step t)

/-- The same of whole runs: they stand the same way after any number of steps. -/
def Obligations.HighHalvesNeverMatterToARun : Prop :=
  ∀ (k : Nat) (s t : State), lowHalvesAgree s t → runsAgree lowHalvesAgree (run k s) (run k t)

/-- Where the 64-bit sum of an instruction has a zero high half, the two settings of
`RA_UPDATE_FULL64` give the same answer, register for register (92_eei_decisions.md D3). -/
def Obligations.SettingsAgreeOnSmallSums : Prop :=
  ∀ (i : Instr) (s s' : State), (sumOf s i).toNat < 2 ^ 32 →
    s.config.raUpdateFull64 = false →
      s' = { s with config := { s.config with raUpdateFull64 := true } } →
        answersAgree (fun t t' => t'.gpr = t.gpr ∧ t'.fpr = t.fpr ∧ t'.pc = t.pc ∧
          t'.msrFp = t.msrFp ∧ t'.mem = t.mem) (exec i s) (exec i s')
end

