-- ==== Sys2Proof/Laws/Decode.lean ====
section
/-!
SUPPORT. Everything the decoder can answer, and the recursion of a big-endian read.
-/

namespace Sys2Proof

/-- Everything `decode` can answer, by the fields that select it (R51). -/
theorem decode_cases (w : Word) :
    (opcdField w = 50#6 ∧ decode w = .ok (.lfd (frtField w) (raField w) (dField w))) ∨
      (opcdField w = 51#6 ∧ decode w = .ok (.lfdu (frtField w) (raField w) (dField w))) ∨
      (opcdField w = 31#6 ∧ xoField w = 599#10 ∧ rcField w = 0#1 ∧
        decode w = .ok (.lfdx (frtField w) (raField w) (rbField w))) ∨
      (opcdField w = 31#6 ∧ xoField w = 631#10 ∧ rcField w = 0#1 ∧
        decode w = .ok (.lfdux (frtField w) (raField w) (rbField w))) ∨
      ((opcdField w ≠ 50#6 ∧ opcdField w ≠ 51#6 ∧
          (opcdField w = 31#6 → rcField w = 0#1 → xoField w ≠ 599#10 ∧ xoField w ≠ 631#10)) ∧
        decode w = .error (.notInSpec w)) := by
  unfold decode decodeX
  split_ifs <;> simp_all

namespace Machine

/-- The number of bytes read. -/
@[simp] theorem Memory.bytes_length (m : Memory) (a n : Nat) : (m.bytes a n).length = n := by
  induction n generalizing a with
  | zero => rfl
  | succ n ih => simp [Memory.bytes, ih]

/-- A big-endian value continued from a value already read. -/
theorem bigEndian_foldl (bs : List Byte) (acc : Nat) :
    bs.foldl (fun (acc : Nat) (b : Byte) => acc * 256 + b.toNat) acc =
      acc * 256 ^ bs.length + bigEndian bs := by
  induction bs generalizing acc with
  | nil => simp [bigEndian]
  | cons b rest ih =>
    simp only [bigEndian, List.foldl, List.length_cons]
    rw [ih, ih (0 * 256 + b.toNat)]
    ring

@[simp] theorem Memory.readBE_zero (m : Memory) (a : Nat) : m.readBE a 0 = 0 := rfl

/-- A wider read: the first byte is the most significant, the rest is the read one address up (R31). -/
theorem Memory.readBE_succ (m : Memory) (a n : Nat) :
    m.readBE a (n + 1) = (m.read a).toNat * 256 ^ n + m.readBE (a + 1) n := by
  have h := bigEndian_foldl (m.bytes (a + 1) n) (0 * 256 + (m.read a).toNat)
  simpa [Memory.readBE, Memory.bytes, bigEndian] using h

end Machine

end Sys2Proof
end

