-- ==== Sys2Proof/Laws/State.lean ====
section
/-!
SUPPORT. The small lemmas of the register operations and of the state updates, so that no later proof
unfolds a record update.
-/

namespace Sys2Proof.Machine

variable (s : State) (n m : BitVec 5) (v : Double) (t : Address) (w : Word)

/-! ## One field of one update -/

@[simp] theorem State.setGpr_fpr : (s.setGpr n v).fpr = s.fpr := rfl
@[simp] theorem State.setGpr_pc : (s.setGpr n v).pc = s.pc := rfl
@[simp] theorem State.setGpr_msrFp : (s.setGpr n v).msrFp = s.msrFp := rfl
@[simp] theorem State.setGpr_mem : (s.setGpr n v).mem = s.mem := rfl
@[simp] theorem State.setGpr_config : (s.setGpr n v).config = s.config := rfl

@[simp] theorem State.setFpr_gpr : (s.setFpr n v).gpr = s.gpr := rfl
@[simp] theorem State.setFpr_pc : (s.setFpr n v).pc = s.pc := rfl
@[simp] theorem State.setFpr_msrFp : (s.setFpr n v).msrFp = s.msrFp := rfl
@[simp] theorem State.setFpr_mem : (s.setFpr n v).mem = s.mem := rfl
@[simp] theorem State.setFpr_config : (s.setFpr n v).config = s.config := rfl

@[simp] theorem State.setPc_gpr : (s.setPc t).gpr = s.gpr := rfl
@[simp] theorem State.setPc_fpr : (s.setPc t).fpr = s.fpr := rfl
@[simp] theorem State.setPc_pc : (s.setPc t).pc = t := rfl
@[simp] theorem State.setPc_msrFp : (s.setPc t).msrFp = s.msrFp := rfl
@[simp] theorem State.setPc_mem : (s.setPc t).mem = s.mem := rfl
@[simp] theorem State.setPc_config : (s.setPc t).config = s.config := rfl

@[simp] theorem State.advance_gpr : s.advance.gpr = s.gpr := rfl
@[simp] theorem State.advance_fpr : s.advance.fpr = s.fpr := rfl
@[simp] theorem State.advance_pc : s.advance.pc = s.pc + 4 := rfl
@[simp] theorem State.advance_msrFp : s.advance.msrFp = s.msrFp := rfl
@[simp] theorem State.advance_mem : s.advance.mem = s.mem := rfl
@[simp] theorem State.advance_config : s.advance.config = s.config := rfl

@[simp] theorem State.placeWord_gpr : (s.placeWord w).gpr = s.gpr := rfl
@[simp] theorem State.placeWord_fpr : (s.placeWord w).fpr = s.fpr := rfl
@[simp] theorem State.placeWord_pc : (s.placeWord w).pc = s.pc := rfl
@[simp] theorem State.placeWord_msrFp : (s.placeWord w).msrFp = s.msrFp := rfl

/-! ## One register after one update -/

@[simp] theorem State.setGpr_readFpr : (s.setGpr n v).readFpr m = s.readFpr m := rfl
@[simp] theorem State.setFpr_readGpr : (s.setFpr n v).readGpr m = s.readGpr m := rfl
@[simp] theorem State.setPc_readGpr : (s.setPc t).readGpr m = s.readGpr m := rfl
@[simp] theorem State.setPc_readFpr : (s.setPc t).readFpr m = s.readFpr m := rfl
@[simp] theorem State.advance_readGpr : s.advance.readGpr m = s.readGpr m := rfl
@[simp] theorem State.advance_readFpr : s.advance.readFpr m = s.readFpr m := rfl

/-- A general register, `r0` included, holds what was last written to it (R11). -/
@[simp] theorem State.setGpr_readGpr_self : (s.setGpr n v).readGpr n = v := by
  simp [State.setGpr, State.readGpr]

theorem State.setGpr_readGpr_of_ne (h : m ≠ n) : (s.setGpr n v).readGpr m = s.readGpr m := by
  have hne : n.toNat ≠ m.toNat := fun e => h (BitVec.eq_of_toNat_eq e.symm)
  simp [State.setGpr, State.readGpr, hne]

/-- A floating-point register holds the pattern last written to it (R14). -/
@[simp] theorem State.setFpr_readFpr_self : (s.setFpr n v).readFpr n = v := by
  simp [State.setFpr, State.readFpr]

theorem State.setFpr_readFpr_of_ne (h : m ≠ n) : (s.setFpr n v).readFpr m = s.readFpr m := by
  have hne : n.toNat ≠ m.toNat := fun e => h (BitVec.eq_of_toNat_eq e.symm)
  simp [State.setFpr, State.readFpr, hne]

/-- Two states whose register files read the same at every number have the same file. -/
theorem fpr_eq_of_readFpr_eq {s t : State} (h : ∀ n, s.readFpr n = t.readFpr n) : s.fpr = t.fpr := by
  refine Vector.ext fun i hi => ?_
  have := h (BitVec.ofNat 5 i)
  simpa [State.readFpr, Nat.mod_eq_of_lt hi] using this

theorem gpr_eq_of_readGpr_eq {s t : State} (h : ∀ n, s.readGpr n = t.readGpr n) : s.gpr = t.gpr := by
  refine Vector.ext fun i hi => ?_
  have := h (BitVec.ofNat 5 i)
  simpa [State.readGpr, Nat.mod_eq_of_lt hi] using this

end Sys2Proof.Machine
end

