-- ==== Sys2Proof/Laws/Ops.lean ====
section
/-!
SUPPORT. Once for each shared operation: everything it can do.
-/

namespace Sys2Proof.Machine

/-- What `Admit` says, as arithmetic on addresses: inside the address space (R37) and inside one range
that allows the access (R36). -/
theorem Config.admits_iff (c : Config) (a : Address) (n : Nat) (kind : Access) :
    c.admits a n kind = true ↔
      a.toNat + n ≤ 2 ^ 32 ∧
        ∃ r ∈ c.regions, r.allows kind = true ∧ r.base ≤ a.toNat ∧ a.toNat + n ≤ r.base + r.size := by
  rw [Config.admits, Bool.and_eq_true, List.any_eq_true]
  simp only [decide_eq_true_iff, Region.covers, Bool.and_eq_true]
  rfl

/-- Everything `loadDouble` can answer: a completed load under the three conditions, or one of the
three stops in the order of R95. -/
theorem loadDouble_cases (s : State) (ea : Address) (finish : Double → State) :
    (s.msrFp = true ∧ s.config.admits ea 8 .load = true ∧ s.pc ≠ lastPc ∧
        loadDouble s ea finish = .next (finish (s.mem.read64 ea.toNat))) ∨
      (s.msrFp = false ∧ loadDouble s ea finish = .fault .fpUnavailable) ∨
      (s.msrFp = true ∧ s.config.admits ea 8 .load = false ∧
        loadDouble s ea finish = .fault (.memFault ea)) ∨
      (s.msrFp = true ∧ s.config.admits ea 8 .load = true ∧ s.pc = lastPc ∧
        loadDouble s ea finish = .refused .pcWrap) := by
  unfold loadDouble raiseFpUnavailable raiseMemFault
  cases hf : s.msrFp <;> cases ha : s.config.admits ea 8 .load <;> by_cases hp : s.pc = lastPc <;>
    simp [hp]

/-- A load that answers a next state completed, with the value read. -/
theorem loadDouble_next {s t : State} {ea : Address} {finish : Double → State}
    (h : loadDouble s ea finish = .next t) :
    s.msrFp = true ∧ s.config.admits ea 8 .load = true ∧ s.pc ≠ lastPc ∧
      t = finish (s.mem.read64 ea.toNat) := by
  rcases loadDouble_cases s ea finish with
    ⟨hf, ha, hp, e⟩ | ⟨-, e⟩ | ⟨-, -, e⟩ | ⟨-, -, -, e⟩ <;> rw [e] at h <;> cases h
  exact ⟨hf, ha, hp, rfl⟩

/-- Everything `requireForm` can answer: the invalid form under `refuse`, or what it guards. -/
theorem requireForm_cases (s : State) (ra : GprNum) (k : Answer) :
    (ra = 0 ∧ s.config.invalidForm = .refuse ∧ requireForm s ra k = .refused .invalidForm) ∨
      ((ra ≠ 0 ∨ s.config.invalidForm = .asInterpreter) ∧ requireForm s ra k = k) := by
  unfold requireForm
  by_cases hr : ra = 0
  · cases hi : s.config.invalidForm <;> simp [hr]
  · exact .inr ⟨.inl hr, if_neg fun h => hr h.1⟩

/-- Everything the part of the step before the meaning can answer (R113). -/
theorem fetchAndRun_cases (s : State) (k : Instr → Answer) :
    (s.pc = s.config.codeEnd ∧ fetchAndRun s k = .refused .runOver) ∨
      (s.pc ≠ s.config.codeEnd ∧ s.pc.toNat % 4 ≠ 0 ∧ fetchAndRun s k = .refused .pcMisaligned) ∨
      (s.pc ≠ s.config.codeEnd ∧ s.pc.toNat % 4 = 0 ∧ s.config.admits s.pc 4 .fetch = false ∧
        fetchAndRun s k = .fault (.memFault s.pc)) ∨
      (s.pc ≠ s.config.codeEnd ∧ s.pc.toNat % 4 = 0 ∧ s.config.admits s.pc 4 .fetch = true ∧
        (∃ r, decode (s.mem.read32 s.pc.toNat) = .error r) ∧
          fetchAndRun s k = .refused (.notInSpec (s.mem.read32 s.pc.toNat))) ∨
      (s.pc ≠ s.config.codeEnd ∧ s.pc.toNat % 4 = 0 ∧ s.config.admits s.pc 4 .fetch = true ∧
        ∃ i, decode (s.mem.read32 s.pc.toNat) = .ok i ∧ fetchAndRun s k = k i) := by
  unfold fetchAndRun raiseMemFault
  by_cases hc : s.pc = s.config.codeEnd
  · simp [hc]
  by_cases hm : s.pc.toNat % 4 = 0
  · cases ha : s.config.admits s.pc 4 .fetch
    · simp [hc, hm]
    · cases hd : decode (s.mem.read32 s.pc.toNat) <;> simp [hc, hm]
  · simp [hc, hm]

/-- A load without update that answers a next state (R70). -/
theorem loadPlain_next {frt : FprNum} {sum : Double} {s t : State} (h : loadPlain frt sum s = .next t) :
    s.msrFp = true ∧ s.config.admits (truncate32 sum) 8 .load = true ∧ s.pc ≠ lastPc ∧
      t = (s.setFpr frt (s.mem.read64 (truncate32 sum).toNat)).advance :=
  loadDouble_next h

/-- A load with update that answers a next state (R70, R73). -/
theorem loadUpdate_next {frt : FprNum} {ra : GprNum} {sum : Double} {s t : State}
    (h : loadUpdate frt ra sum s = .next t) :
    (ra ≠ 0 ∨ s.config.invalidForm = .asInterpreter) ∧ s.msrFp = true ∧
      s.config.admits (truncate32 sum) 8 .load = true ∧ s.pc ≠ lastPc ∧
        t = ((s.setFpr frt (s.mem.read64 (truncate32 sum).toNat)).setGpr ra (raUpdate s sum)).advance := by
  unfold loadUpdate at h
  rcases requireForm_cases s ra _ with ⟨-, -, e⟩ | ⟨hform, e⟩ <;> rw [e] at h
  · cases h
  · exact ⟨hform, loadDouble_next h⟩

end Sys2Proof.Machine
end

