-- ==== Sys2Proof/Laws/Exec.lean ====
section
/-!
SUPPORT. Once for all four instructions: everything `exec` can do, and everything one step can do.
-/

namespace Sys2Proof.Machine

/-- The state an instruction leaves when it completes with the value read (R70 steps 5 to 7). -/
def completedState (i : Instr) (s : State) (v : Double) : State :=
  match i with
  | .lfd frt _ _ => (s.setFpr frt v).advance
  | .lfdu frt ra d => ((s.setFpr frt v).setGpr ra (raUpdate s (sumOf s (.lfdu frt ra d)))).advance
  | .lfdux frt ra rb => ((s.setFpr frt v).setGpr ra (raUpdate s (sumOf s (.lfdux frt ra rb)))).advance
  | .lfdx frt _ _ => (s.setFpr frt v).advance

section
variable (i : Instr) (s : State) (v : Double)

@[simp] theorem completedState_pc : (completedState i s v).pc = s.pc + 4 := by
  cases i <;> simp [completedState]

@[simp] theorem completedState_msrFp : (completedState i s v).msrFp = s.msrFp := by
  cases i <;> simp [completedState]

@[simp] theorem completedState_mem : (completedState i s v).mem = s.mem := by
  cases i <;> simp [completedState]

@[simp] theorem completedState_config : (completedState i s v).config = s.config := by
  cases i <;> simp [completedState]

@[simp] theorem completedState_readFpr_fd : (completedState i s v).readFpr (fdOf i) = v := by
  cases i <;> simp [completedState, fdOf]

end

/-- Where RA names a register and not the literal zero, the sum is that register plus the offset. -/
theorem sumOf_eq_base_add_offset {i : Instr} {s : State}
    (h : baseOf i ≠ 0 ∨ updatedBase i = some (baseOf i)) :
    sumOf s i = s.readGpr (baseOf i) + offsetOf s i := by
  cases i <;>
    simp_all [sumOf, baseOf, offsetOf, updatedBase, addressSum, operandRA0, operandRA]

/-- Everything an instruction can answer: the load of R70 when its form is allowed, the refusal of an
invalid form otherwise. -/
theorem exec_cases (i : Instr) (s : State) :
    (formAllowed i s ∧ exec i s = loadDouble s (addressOf s i) (completedState i s)) ∨
      (¬ formAllowed i s ∧ exec i s = .refused .invalidForm) := by
  cases i with
  | lfd frt ra d => exact .inl ⟨.inl rfl, rfl⟩
  | lfdx frt ra rb => exact .inl ⟨.inl rfl, rfl⟩
  | lfdu frt ra d =>
    rcases requireForm_cases s ra (loadDouble s (addressOf s (.lfdu frt ra d))
      (completedState (.lfdu frt ra d) s)) with ⟨h, hp, e⟩ | ⟨h, e⟩
    · exact .inr ⟨by simp [Instr.wellFormed, h, hp], e⟩
    · exact .inl ⟨by simpa [formAllowed, Instr.wellFormed] using h, e⟩
  | lfdux frt ra rb =>
    rcases requireForm_cases s ra (loadDouble s (addressOf s (.lfdux frt ra rb))
      (completedState (.lfdux frt ra rb) s)) with ⟨h, hp, e⟩ | ⟨h, e⟩
    · exact .inr ⟨by simp [Instr.wellFormed, h, hp], e⟩
    · exact .inl ⟨by simpa [formAllowed, Instr.wellFormed] using h, e⟩

/-- An instruction that answers a next state completed, with the eight bytes at its address. -/
theorem exec_next {i : Instr} {s t : State} (h : exec i s = .next t) :
    completes i s ∧ t = completedState i s (s.mem.read64 (addressOf s i).toNat) := by
  rcases exec_cases i s with ⟨hf, e⟩ | ⟨-, e⟩ <;> rw [e] at h
  · obtain ⟨hm, ha, hp, rfl⟩ := loadDouble_next h
    exact ⟨⟨hf, hm, ha, hp⟩, rfl⟩
  · cases h

/-- A step that answers a next state fetched and decoded an instruction that completed. -/
theorem step_next {s t : State} (h : step s = .next t) :
    ∃ i, s.pc ≠ s.config.codeEnd ∧ s.pc.toNat % 4 = 0 ∧ s.config.admits s.pc 4 .fetch = true ∧
      decode (s.mem.read32 s.pc.toNat) = .ok i ∧ completes i s ∧
        t = completedState i s (s.mem.read64 (addressOf s i).toNat) := by
  rcases fetchAndRun_cases s fun i => exec i s with
    ⟨-, e⟩ | ⟨-, -, e⟩ | ⟨-, -, -, e⟩ | ⟨-, -, -, -, e⟩ | ⟨hc, ha, hf, i, hd, e⟩ <;>
    rw [step, e] at h
  iterate 4 cases h
  exact ⟨i, hc, ha, hf, hd, exec_next h⟩

end Sys2Proof.Machine
end

