-- ==== Sys2Proof/Laws/Memory.lean ====
section
/-!
SUPPORT. Reading, writing and the canonical form of memory: a read after a write, and every memory
operation keeps the canonical form.
-/

namespace Sys2Proof.Machine

/-! ## The list of cells -/

/-- Every cell of the list lies strictly above an address. -/
def CellsAbove (a : Nat) (cells : List Host.Cell) : Prop := ∀ p ∈ cells, a < p.1

theorem lookupCell_of_above {cells : List Host.Cell} {a b : Nat} (h : CellsAbove b cells) (hb : a ≤ b) :
    lookupCell cells a = unlistedByte := by
  induction cells with
  | nil => rfl
  | cons p rest ih =>
    have hp : b < p.1 := h p (by simp)
    have hne : p.1 ≠ a := by omega
    simp only [lookupCell, hne, if_false]
    exact ih fun q hq => h q (by simp [hq])

theorem lookupCell_consCell (a : Nat) (b : Byte) (rest : List Host.Cell) (x : Nat)
    (h : CellsAbove a rest) :
    lookupCell (consCell a b rest) x = if a = x then b else lookupCell rest x := by
  unfold consCell
  by_cases hb : b = unlistedByte
  · by_cases hx : a = x
    · subst hx; simp [hb, lookupCell_of_above h le_rfl]
    · simp [hb, hx]
  · simp [hb, lookupCell]

/-- Reading any address after one byte was stored. -/
theorem lookupCell_storeCell (cells : List Host.Cell) (a : Nat) (b : Byte) (x : Nat)
    (h : cells.Pairwise fun p q => p.1 < q.1) :
    lookupCell (storeCell cells a b) x = if a = x then b else lookupCell cells x := by
  induction cells with
  | nil => exact lookupCell_consCell a b [] x (by simp [CellsAbove])
  | cons p rest ih =>
    obtain ⟨y, c⟩ := p
    obtain ⟨hy, hrest⟩ := List.pairwise_cons.1 h
    simp only [storeCell]
    by_cases hlt : a < y
    · rw [if_pos hlt]
      refine lookupCell_consCell a b _ x fun q hq => ?_
      rcases List.mem_cons.1 hq with rfl | hq
      · exact hlt
      · exact hlt.trans (hy q hq)
    rw [if_neg hlt]
    by_cases heq : a = y
    · subst heq
      rw [if_pos rfl, lookupCell_consCell a b rest x fun q hq => hy q hq]
      by_cases hx : a = x <;> simp [lookupCell, hx]
    · rw [if_neg heq]
      by_cases hyx : y = x
      · have : a ≠ x := by omega
        simp [lookupCell, hyx, this]
      · simp only [lookupCell, hyx, if_false]
        exact ih hrest

theorem mem_consCell {a : Nat} {b : Byte} {rest : List Host.Cell} {p : Host.Cell}
    (h : p ∈ consCell a b rest) : (p = (a, b) ∧ b ≠ unlistedByte) ∨ p ∈ rest := by
  unfold consCell at h
  split_ifs at h with hb
  · exact .inr h
  · rcases List.mem_cons.1 h with rfl | h
    · exact .inl ⟨rfl, hb⟩
    · exact .inr h

theorem mem_storeCell {cells : List Host.Cell} {a : Nat} {b : Byte} {p : Host.Cell}
    (h : p ∈ storeCell cells a b) : (p = (a, b) ∧ b ≠ unlistedByte) ∨ p ∈ cells := by
  induction cells with
  | nil => exact mem_consCell h
  | cons q rest ih =>
    simp only [storeCell] at h
    split_ifs at h
    · exact mem_consCell h
    · exact (mem_consCell h).imp_right fun h => List.mem_cons_of_mem _ h
    · rcases List.mem_cons.1 h with rfl | h
      · exact .inr (by simp)
      · exact (ih h).imp_right fun h => List.mem_cons_of_mem _ h

theorem pairwise_consCell {a : Nat} {b : Byte} {rest : List Host.Cell}
    (h : rest.Pairwise fun p q => p.1 < q.1) (ha : CellsAbove a rest) :
    (consCell a b rest).Pairwise fun p q => p.1 < q.1 := by
  unfold consCell
  split_ifs
  · exact h
  · exact List.pairwise_cons.2 ⟨fun q hq => ha q hq, h⟩

theorem pairwise_storeCell {cells : List Host.Cell} {a : Nat} {b : Byte}
    (h : cells.Pairwise fun p q => p.1 < q.1) :
    (storeCell cells a b).Pairwise fun p q => p.1 < q.1 := by
  induction cells with
  | nil => exact pairwise_consCell .nil (by simp [CellsAbove])
  | cons p rest ih =>
    obtain ⟨y, c⟩ := p
    obtain ⟨hy, hrest⟩ := List.pairwise_cons.1 h
    simp only [storeCell]
    split_ifs with hlt heq
    · refine pairwise_consCell h fun q hq => ?_
      rcases List.mem_cons.1 hq with rfl | hq
      · exact hlt
      · exact hlt.trans (hy q hq)
    · subst heq; exact pairwise_consCell hrest fun q hq => hy q hq
    · refine List.pairwise_cons.2 ⟨fun q hq => ?_, ih hrest⟩
      rcases mem_storeCell hq with ⟨rfl, -⟩ | hq
      · show y < a
        omega
      · exact hy q hq

/-! ## Memory -/

/-- A write keeps the canonical form. -/
theorem Memory.write_keeps_wf {m : Memory} (h : m.wf) (a : Nat) (b : Byte) : (m.write a b).wf := by
  unfold Memory.write
  split_ifs with ha
  · refine ⟨pairwise_storeCell h.1, fun p hp => ?_⟩
    rcases mem_storeCell hp with ⟨rfl, hb⟩ | hp
    · exact ⟨ha, hb⟩
    · exact h.2 p hp
  · exact h

/-- Writing a list of bytes keeps the canonical form. -/
theorem Memory.writeBytes_keeps_wf {m : Memory} (h : m.wf) (a : Nat) (bs : List Byte) :
    (m.writeBytes a bs).wf := by
  induction bs generalizing m a with
  | nil => exact h
  | cons b rest ih => exact ih (Memory.write_keeps_wf h a b) (a + 1)

/-- The reset memory has the canonical form. -/
theorem reset_mem_wf : State.reset.mem.wf := by
  simp [State.reset, Memory.wf]

/-- A byte reads as what was last written to it; every other byte is as before. -/
theorem Memory.read_write {m : Memory} (h : m.wf) {a : Nat} (ha : a < addressCount) (b : Byte) (x : Nat) :
    (m.write a b).read x = if a = x then b else m.read x := by
  simpa [Memory.write, ha, Memory.read] using lookupCell_storeCell m.cells a b x h.1

end Sys2Proof.Machine
end

