-- ==== Sys2Proof/Laws/PerInstr.lean ====
section
/-!
SUPPORT. A family of statements about every instruction as syntax: the fields every row of the opcode
table has stand in the word where spec/30_encoding.md R52 and R53 put them.
-/

namespace Sys2Proof.Laws

/-- The primary opcode of an instruction (R56). -/
def primaryOpcode : Instr → BitVec 6
  | .lfd _ _ _ => 50#6
  | .lfdu _ _ _ => 51#6
  | .lfdux _ _ _ => 31#6
  | .lfdx _ _ _ => 31#6

/-- The number in the FRT field of an instruction. -/
def frtOperand : Instr → FprNum
  | .lfd frt _ _ => frt
  | .lfdu frt _ _ => frt
  | .lfdux frt _ _ => frt
  | .lfdx frt _ _ => frt

/-- The number in the RA field of an instruction. -/
def raOperand : Instr → GprNum
  | .lfd _ ra _ => ra
  | .lfdu _ ra _ => ra
  | .lfdux _ ra _ => ra
  | .lfdx _ ra _ => ra

/-- The encoded word carries OPCD, FRT and RA in their fields. -/
def FieldsInWord.Statement (i : Instr) : Prop :=
  opcdField (encode i) = primaryOpcode i ∧ frtField (encode i) = frtOperand i ∧
    raField (encode i) = raOperand i

/-- The fields of a form D word are the ones it was made of (R52). -/
theorem formD_fields (o : BitVec 6) (f : FprNum) (r : GprNum) (d : Disp) :
    opcdField (formD o f r d) = o ∧ frtField (formD o f r d) = f ∧ raField (formD o f r d) = r ∧
      dField (formD o f r d) = d := by
  refine ⟨?_, ?_, ?_, ?_⟩ <;> apply BitVec.eq_of_getLsbD_eq <;> intro k hk <;>
    interval_cases k <;>
    simp [opcdField, frtField, raField, dField, formD, placeField]

/-- The fields of a form X word are the ones it was made of (R53). -/
theorem formX_fields (o : BitVec 6) (f : FprNum) (r b : GprNum) (x : BitVec 10) (c : BitVec 1) :
    opcdField (formX o f r b x c) = o ∧ frtField (formX o f r b x c) = f ∧
      raField (formX o f r b x c) = r ∧ rbField (formX o f r b x c) = b ∧
        xoField (formX o f r b x c) = x ∧ rcField (formX o f r b x c) = c := by
  refine ⟨?_, ?_, ?_, ?_, ?_, ?_⟩ <;> apply BitVec.eq_of_getLsbD_eq <;> intro k hk <;>
    interval_cases k <;>
    simp [opcdField, frtField, raField, rbField, xoField, rcField, formX, placeField]

theorem FieldsInWord.lfd (frt : FprNum) (ra : GprNum) (d : Disp) :
    FieldsInWord.Statement (.lfd frt ra d) :=
  have h := formD_fields 50#6 frt ra d
  ⟨h.1, h.2.1, h.2.2.1⟩

theorem FieldsInWord.lfdu (frt : FprNum) (ra : GprNum) (d : Disp) :
    FieldsInWord.Statement (.lfdu frt ra d) :=
  have h := formD_fields 51#6 frt ra d
  ⟨h.1, h.2.1, h.2.2.1⟩

theorem FieldsInWord.lfdux (frt : FprNum) (ra rb : GprNum) :
    FieldsInWord.Statement (.lfdux frt ra rb) :=
  have h := formX_fields 31#6 frt ra rb 631#10 0#1
  ⟨h.1, h.2.1, h.2.2.1⟩

theorem FieldsInWord.lfdx (frt : FprNum) (ra rb : GprNum) :
    FieldsInWord.Statement (.lfdx frt ra rb) :=
  have h := formX_fields 31#6 frt ra rb 599#10 0#1
  ⟨h.1, h.2.1, h.2.2.1⟩

end Sys2Proof.Laws
end

