-- ==== Sys2Proof/Machine/Assembly.lean ====
section
/-!
DEFINITION. The assembler line of an instruction (spec/30_encoding.md R62): lower-case mnemonic,
destination, then displacement and base in parentheses or base and index. The page has no
pseudo-instruction and no alias (R63).
-/

namespace Sys2Proof.Machine

/-- `r0` to `r31`, the spelling of the Operands table. -/
def gprName (n : GprNum) : String := "r" ++ toString n.toNat

/-- `f0` to `f31`. The letter is the spec's own choice (D17; log 26). -/
def fprName (n : FprNum) : String := "f" ++ toString n.toNat

/-- An RA0 slot: a bare `0` for the literal zero, else the register. -/
def ra0Name (n : GprNum) : String := if n = 0 then "0" else gprName n

/-- The displacement as a signed decimal number from -32768 to 32767. -/
def dispText (d : Disp) : String := toString d.toInt

/-- The line of the Syntax block with its slots filled. -/
def assembly : Instr → String
  | .lfd frt ra d => "lfd " ++ fprName frt ++ ", " ++ dispText d ++ "(" ++ ra0Name ra ++ ")"
  | .lfdu frt ra d => "lfdu " ++ fprName frt ++ ", " ++ dispText d ++ "(" ++ gprName ra ++ ")"
  | .lfdux frt ra rb => "lfdux " ++ fprName frt ++ ", " ++ gprName ra ++ ", " ++ gprName rb
  | .lfdx frt ra rb => "lfdx " ++ fprName frt ++ ", " ++ ra0Name ra ++ ", " ++ gprName rb

end Sys2Proof.Machine
end

