-- ==== Sys2Proof/Tests/Slice0.lean ====
section
/-!
SUPPORT. The model's own tests. Expected values are the spec's: the words and the vectors named V-… of
spec/95_test_vectors.md, and the encodings of spec/30_encoding.md R56. Then, for each statement with
premises, a concrete state that meets them.
-/

namespace Sys2Proof.Machine

/-! ## Well-formedness (R57, R59) -/

theorem test_wellFormed_refuses_lfdu_with_base_zero :
    (Instr.lfdu 1 0 8).wellFormed = false ∧ (Instr.lfdu 1 4 8).wellFormed = true := by decide

theorem test_wellFormed_refuses_lfdux_with_base_zero :
    (Instr.lfdux 5 0 7).wellFormed = false ∧ (Instr.lfdux 5 6 0).wellFormed = true := by decide

theorem test_wellFormed_admits_literal_zero_base :
    (Instr.lfd 0 0 0).wellFormed = true ∧ (Instr.lfdx 0 0 0).wellFormed = true := by decide

/-! ## Decoding of words written out from R56: OPCD, FRT, RA, then D or RB, XO, Rc -/

/-- V-dec-2: `110010 00010 00011 1111111111111000` is `lfd f2, -8(r3)`. -/
theorem test_decode_lfd :
    decode 0b11001000010000111111111111111000#32 = .ok (.lfd 2#5 3#5 (-8)) := by decide

/-- V-dec-6: `110011 00001 00100 0000000000001000` is `lfdu f1, 8(r4)`. -/
theorem test_decode_lfdu :
    decode 0b11001100001001000000000000001000#32 = .ok (.lfdu 1#5 4#5 8#16) := by decide

/-- V-dec-8: `011111 00101 00110 00111 1001110111 0` is `lfdux f5, r6, r7`. -/
theorem test_decode_lfdux :
    decode 0b01111100101001100011110011101110#32 = .ok (.lfdux 5#5 6#5 7#5) := by decide

/-- V-dec-10: `011111 00001 00011 00100 1001010111 0` is `lfdx f1, r3, r4`. -/
theorem test_decode_lfdx :
    decode 0b01111100001000110010010010101110#32 = .ok (.lfdx 1#5 3#5 4#5) := by decide

/-- V-dec-13 to V-dec-18: Rc = 1, a neighbouring XO, other primary opcodes. -/
theorem test_decode_refuses_other_words :
    [0x7C2324AF#32, 0x7CA63CEF#32, 0x7C2324AC#32, 0x60000000#32, 0xC4000000#32, 0xD0000000#32].all
      (fun w => decode w = .error (.notInSpec w)) = true := by decide

/-- The opcode words of the table, as the host numbers them; the last is V-dec-7. -/
theorem test_decodeTableWord :
    decodeTableWord 32 0xC8000000 = some (.lfd 0 0 0) ∧
      decodeTableWord 32 0xCC000000 = some (.lfdu 0 0 0) ∧
        decodeTableWord 32 0x7C0004EE = some (.lfdux 0 0 0) ∧
          decodeTableWord 32 0x7C0004AE = some (.lfdx 0 0 0) ∧
            decodeTableWord 32 0xCC200008 = some (.lfdu 1 0 8) := by decide

/-- Three bytes are no instruction (R50). -/
theorem test_decodeBytes_too_short : decodeBytes [0xC8#8, 0x23#8, 0x00#8] = .error .tooShort := by decide

/-- The lines of R62: V-dec-2, V-dec-11, and S2. -/
theorem test_assembly :
    assembly (.lfd 2 3 (-8)) = "lfd f2, -8(r3)" ∧ assembly (.lfdx 1 0 4) = "lfdx f1, 0, r4" ∧
      assembly (.lfd 0 0 0) = "lfd f0, 0(0)" ∧ assembly (.lfdu 1 0 8) = "lfdu f1, 8(r0)" ∧
        assembly (.lfdux 5 6 7) = "lfdux f5, r6, r7" := by decide

/-! ## One step on a small state -/

/-- The part of the memory image of 95_test_vectors.md that these tests read. -/
def testMemory : Memory :=
  ((⟨[]⟩ : Memory).writeBytes 0 [0x40, 0x09, 0x21, 0xFB, 0x54, 0x44, 0x2D, 0x18]).writeBytes 0x1008
    [0x40, 0, 0, 0, 0, 0, 0, 0, 0xC0, 0x08] |>.writeBytes 0x1028
      [0x01, 0x02, 0x03, 0x04, 0x05, 0x06, 0x07, 0x08, 0x09] |>.writeBytes 0xFFFFFFF8
        [0xFF, 0xEE, 0xDD, 0xCC, 0xBB, 0xAA, 0x99, 0x88]

/-- The ranges `Admit` allows in 95_test_vectors.md. -/
def testRegions : List Region :=
  [⟨0, 0x10, true, true⟩, ⟨0x1000, 0x38, true, true⟩, ⟨0x2000, 0x100, true, true⟩,
    ⟨0xFFFFFFF8, 8, true, true⟩]

/-- The vectors' launch of a program at `0x2000` over that image, with some general registers set.
`CODE_END` is past the last word. -/
def testState (program : List Word) (regs : List (GprNum × Double)) : State :=
  let s : State :=
    { State.reset with
      pc := 0x2000
      mem := testMemory.writeBytes 0x2000 (program.flatMap bytesOfWord)
      config :=
        { regions := testRegions
          codeEnd := BitVec.ofNat 32 (0x2000 + 4 * program.length)
          invalidForm := .refuse
          raUpdateFull64 := false } }
  regs.foldl (fun t r => t.setGpr r.1 r.2) s

/-- The same state under other settings of the policies. -/
def State.withPolicies (s : State) (form : InvalidFormPolicy) (full64 : Bool) : State :=
  { s with config := { s.config with invalidForm := form, raUpdateFull64 := full64 } }

/-- The same state with MSR[FP] = 0. -/
def State.withUnitOff (s : State) : State := { s with msrFp := false }

/-- A floating-point register, a general register and `pc` of the next state, if there is one. -/
def after (a : Answer) (f : FprNum) (x : GprNum) : Option (Double × Double × Address) :=
  match a with
  | .next t => some (t.readFpr f, t.readGpr x, t.pc)
  | _ => none

/-- The next state, if there is one. -/
def nextOf : Answer → Option State
  | .next t => some t
  | _ => none

/-- The fault or the refusal of a step that stops. -/
def stopOf : Answer → Option (Fault ⊕ Refusal)
  | .next _ => none
  | .fault f => some (.inl f)
  | .refused r => some (.inr r)

/-- V-lfd-3: RA = 0 is the literal zero, `r0` is neither used nor written. -/
theorem test_lfd_literal_zero :
    after (step (testState [0xC8000000#32] [(0, 0xDEADBEEF#64)])) 0 0 =
      some (0x400921FB54442D18#64, 0xDEADBEEF#64, 0x2004#32) := by decide

/-- V-lfd-9: an odd address is performed, and the bytes are big-endian. -/
theorem test_lfd_odd_address :
    after (step (testState [0xC8830001#32] [(3, 0x1028#64)])) 4 3 =
      some (0x0203040506070809#64, 0x1028#64, 0x2004#32) := by decide

/-- V-lfdu-4: a negative displacement wraps below zero, and RA receives the address zero-extended. -/
theorem test_lfdu_updates_zero_extended :
    after (step (testState [0xCC24FFF8#32] [(4, 0#64)])) 1 4 =
      some (0xFFEEDDCCBBAA9988#64, 0xFFFFFFF8#64, 0x2004#32) := by decide

/-- V-lfdu-10 and V-lfdu-8: the invalid form is refused before the enable is looked at. -/
theorem test_lfdu_stops_in_order :
    stopOf (step (testState [0xCC200008#32] [(0, 0xFF8#64)]).withUnitOff) = some (.inr .invalidForm) ∧
      stopOf (step (testState [0xCC240008#32] [(4, 0xFF8#64)]).withUnitOff) =
        some (.inl .fpUnavailable) := by decide

/-- V-lfdux-3: RA = RB, both read before RA is written. -/
theorem test_lfdux_same_register :
    after (step (testState [0x7CA634EE#32] [(6, 0x804#64)])) 5 6 =
      some (0x4000000000000000#64, 0x1008#64, 0x2004#32) := by decide

/-- V-lfdux-5F: with `RA_UPDATE_FULL64` the whole sum goes to RA. -/
theorem test_lfdux_full_update :
    after (step ((testState [0x7CA63CEE#32]
        [(6, 0x0123456700001000#64), (7, 0x89ABCDEF00000008#64)]).withPolicies .refuse true)) 5 6 =
      some (0x4000000000000000#64, 0x8ACF135600001008#64, 0x2004#32) := by decide

/-- V-lfdx-4: in one word RA = 0 is the literal zero and RB = 0 is `r0`. -/
theorem test_lfdx_zero_fields :
    after (step (testState [0x7C4004AE#32] [(0, 0x1008#64)])) 2 0 =
      some (0x4000000000000000#64, 0x1008#64, 0x2004#32) := by decide

/-- V-lfdx-11: a read that is not admitted faults with its address. -/
theorem test_lfdx_memory_fault :
    stopOf (step (testState [0x7C2324AE#32] [(3, 0x1000#64), (4, 0x38#64)])) =
      some (.inl (.memFault 0x1038#32)) := by decide

/-- V-pc-4: launched at `CODE_END`, the run is over after zero steps; and the host's table word runs as
the first instruction after reset. -/
theorem test_reset_runs_a_placed_word :
    run 1 State.reset = .final State.reset ∧
      after (step (State.reset.withFetchWord 32 0xC8230008)) 1 3 = some (0, 0, 4) := by decide

/-! ## The premises of the statements are met -/

/-- A launch at which each instruction completes: `x[3] = 0x1000`, `x[4] = 8`. -/
def readyState (w : Word) : State := testState [w, 0xC8A30008#32] [(3, 0x1000#64), (4, 8#64)]

theorem witness_EncodeInvertsDecode : decode 0xC8230008#32 = .ok (.lfd 1 3 8) := by decide

theorem witness_DecodeIsMaskAndMatch : State.reset.config.invalidForm = .refuse := by decide

theorem witness_WordOutsideTheTableIsRefused :
    (let w := 0x7C2324AF#32;
      w &&& 0xFC000000#32 ≠ 0xC8000000#32 ∧ w &&& 0xFC000000#32 ≠ 0xCC000000#32 ∧
        w &&& 0xFC0007FF#32 ≠ 0x7C0004AE#32 ∧ w &&& 0xFC0007FF#32 ≠ 0x7C0004EE#32 ∧
          w.extractLsb' 26 6 = 31#6 ∧ w.getLsbD 0 = true) ∧
      (let s := readyState 0x7C2324AF#32;
        s.pc ≠ s.config.codeEnd ∧ s.pc.toNat % 4 = 0 ∧ s.config.admits s.pc 4 .fetch = true ∧
          memRead4 s.mem s.pc.toNat = 0x7C2324AF#32) := by decide

theorem witness_DisplacementIsSignedAndUnscaled :
    (operandD 0x7FFF#16).toInt = 32767 ∧ (operandD 0x8000#16).toInt = -32768 ∧
      (15 < 16 ∧ 16 ≤ 16 ∧ 63 < 64) := by decide

theorem witness_AddressIsTheSumOfLowHalves :
    (0xFFFFFFFF00001000#64).setWidth 32 = (0x1000#64).setWidth 32 ∧
      (0x1000#64).setWidth 32 = 0x1000#32 := by decide

/-- Each clause: an absolute load by `lfd`, one by `lfdx` from `r0` and one from another register, and
`r0` as the offset of `lfdx`, of `lfdux`, and of `lfdux` over `r0` under `asInterpreter`. -/
theorem witness_LiteralZeroBaseIgnoresRegisterZero :
    let s := testState [0xC8200000#32] [(0, 0x804#64), (3, 0x1000#64), (4, 0x804#64)]
    let t := s.withPolicies .asInterpreter false
    (0x0#32 = ((0#16).signExtend 64).setWidth 32 ∧ s.msrFp = true ∧
        s.config.admits 0x0#32 8 .load = true ∧ s.pc ≠ 0xFFFFFFFC#32) ∧
      (let s := s.setGpr 0 0x1008#64;
        0x1008#32 = (s.readGpr 0).setWidth 32 ∧ s.config.admits 0x1008#32 8 .load = true) ∧
      ((3#5 : GprNum) ≠ 0 ∧ 0x1000#32 = (s.readGpr 3).setWidth 32 ∧
        s.config.admits 0x1000#32 8 .load = true) ∧
      ((4#5 : GprNum) ≠ 0 ∧ 0x1008#64 = s.readGpr 4 + s.readGpr 0 ∧
        0x1008#32 = (0x1008#64).setWidth 32 ∧ s.config.admits 0x1008#32 8 .load = true) ∧
      (t.config.invalidForm = .asInterpreter ∧ 0x1008#64 = t.readGpr 0 + t.readGpr 0 ∧
        t.msrFp = true ∧ t.config.admits 0x1008#32 8 .load = true ∧ t.pc ≠ 0xFFFFFFFC#32) := by
  decide

theorem witness_ReadsAreBigEndian : 0 < 1 ∧ 7 < 8 := by decide

theorem witness_EqualReadsMeanEqualMemories : testMemory.wf ∧ (⟨[]⟩ : Memory).wf := by decide

theorem witness_EveryAdmissionIsAListOfRanges : State.reset.config.regions = Config.everything := by
  decide

theorem witness_WrittenBytesReadBack :
    testMemory.wf ∧ 0xFFFFFFFE + [1#8, 2#8].length ≤ 2 ^ 32 := by decide

theorem witness_LfdLoadsItsDouble :
    let s := readyState 0xC8230008#32
    0x1008#32 = ((if (3#5 : GprNum) = 0 then 0 else s.readGpr 3) + (8#16).signExtend 64).setWidth 32 ∧
      s.msrFp = true ∧ s.config.admits 0x1008#32 8 .load = true ∧ s.pc ≠ 0xFFFFFFFC#32 := by decide

theorem witness_LfduLoadsAndUpdatesItsBase :
    let s := readyState 0xCC230008#32
    0x1008#64 = s.readGpr 3 + (8#16).signExtend 64 ∧ 0x1008#32 = (0x1008#64).setWidth 32 ∧
      ((3#5 : GprNum) ≠ 0 ∨ s.config.invalidForm = .asInterpreter) ∧ s.msrFp = true ∧
        s.config.admits 0x1008#32 8 .load = true ∧ s.pc ≠ 0xFFFFFFFC#32 := by decide

theorem witness_LfduxLoadsAndUpdatesItsBase :
    let s := readyState 0x7C2324EE#32
    0x1008#64 = s.readGpr 3 + s.readGpr 4 ∧ 0x1008#32 = (0x1008#64).setWidth 32 ∧
      ((3#5 : GprNum) ≠ 0 ∨ s.config.invalidForm = .asInterpreter) ∧ s.msrFp = true ∧
        s.config.admits 0x1008#32 8 .load = true ∧ s.pc ≠ 0xFFFFFFFC#32 := by decide

theorem witness_LfdxLoadsItsDouble :
    let s := readyState 0x7C2324AE#32
    0x1008#32 = ((if (3#5 : GprNum) = 0 then 0 else s.readGpr 3) + s.readGpr 4).setWidth 32 ∧
      s.msrFp = true ∧ s.config.admits 0x1008#32 8 .load = true ∧ s.pc ≠ 0xFFFFFFFC#32 := by decide

/-- Two states that differ in a register of each file which `lfdx f1, r3, r4` does not read, and the
instruction completes in the first; and a completing instruction that updates RA. -/
theorem witness_ReadsAndWritesOnlyItsOperands :
    let s := readyState 0x7C2324AE#32
    let t := (s.setGpr 9 1#64).setFpr 1 7#64
    s.pc = t.pc ∧ s.msrFp = t.msrFp ∧ s.mem = t.mem ∧ s.config = t.config ∧
      (∀ n ∈ readsOf (.lfdx 1 3 4), s.readGpr n = t.readGpr n) ∧ s.readGpr 9 ≠ t.readGpr 9 ∧
        after (exec (.lfdx 1 3 4) s) 1 3 = some (0x4000000000000000#64, 0x1000#64, 0x2004#32) ∧
          completes (.lfdux 1 3 4) s ∧ updatedBase (.lfdux 1 3 4) = some 3 := by
  decide

/-- A completing load at an odd address, and one fault of each kind. -/
theorem witness_MisalignedLoadIsPerformed :
    let s := readyState 0xC8230029#32
    completes (.lfd 1 3 0x29) s ∧ (addressOf s (.lfd 1 3 0x29)).toNat % 8 = 1 ∧
      stopOf (exec (.lfd 1 3 8) s.withUnitOff) = some (.inl .fpUnavailable) ∧
        stopOf (exec (.lfd 1 3 0x31) s) = some (.inl (.memFault 0x1031#32)) := by decide

theorem witness_EveryPatternLoadsUnchanged :
    let s := readyState 0xC8230028#32
    completes (.lfd 1 3 0x28) s ∧
      ∀ k < 8, s.mem.read ((addressOf s (.lfd 1 3 0x28)).toNat + k) =
        (0x0102030405060708#64).extractLsb' (56 - 8 * k) 8 := by decide

theorem witness_DisabledUnitRaisesUnavailable :
    let s := (readyState 0xC8230008#32).withUnitOff
    s.msrFp = false ∧ formAllowed (.lfd 1 3 8) s ∧ fetches s (.lfd 1 3 8) := by decide

theorem witness_NothingRunsWithTheUnitDisabled :
    (readyState 0xC8230008#32).withUnitOff.msrFp = false ∧
      after (step (readyState 0xC8230008#32)) 1 3 =
        some (0x4000000000000000#64, 0x1000#64, 0x2004#32) := by decide

/-- Each clause: an invalid form under `refuse`, a valid form, and both invalid forms completing as the
interpreter executes them. -/
theorem witness_InvalidFormFollowsThePolicy :
    let s := testState [0xCC200008#32] [(0, 0x1000#64), (7, 0x10#64)]
    let t := s.withPolicies .asInterpreter false
    ((Instr.lfdu 1 0 8).wellFormed = false ∧ s.config.invalidForm = .refuse) ∧
      (Instr.lfdu 1 4 8).wellFormed = true ∧
        (t.config.invalidForm = .asInterpreter ∧ t.config.raUpdateFull64 = false ∧
          completes (.lfdu 1 0 8) t ∧ completes (.lfdux 5 0 7) t) := by decide

/-- Each clause of the order of events at a state of its own; the last is V-pc-3. -/
theorem witness_FirstEventInOrderIsReported :
    (let s := { readyState 0xC8230008#32 with pc := 0x2002#32 };
      s.pc ≠ s.config.codeEnd ∧ s.pc.toNat % 4 ≠ 0) ∧
    (let s := { readyState 0xC8230008#32 with pc := 0x3000#32 };
      s.pc ≠ s.config.codeEnd ∧ s.pc.toNat % 4 = 0 ∧ s.config.admits s.pc 4 .fetch = false) ∧
    (let s := readyState 0xCC200008#32;
      fetches s (.lfdu 1 0 8) ∧ ¬ formAllowed (.lfdu 1 0 8) s) ∧
    (let s := (readyState 0xC8230031#32).withUnitOff;
      fetches s (.lfd 1 3 0x31) ∧ formAllowed (.lfd 1 3 0x31) s ∧ s.msrFp = false) ∧
    (let s := readyState 0xC8230031#32;
      fetches s (.lfd 1 3 0x31) ∧ formAllowed (.lfd 1 3 0x31) s ∧ s.msrFp = true ∧
        s.config.admits (addressOf s (.lfd 1 3 0x31)) 8 .load = false) ∧
    (let s := { readyState 0xC8230008#32 with
        pc := 0xFFFFFFFC#32, mem := testMemory.writeBytes 0xFFFFFFFC [0xC8, 0x23, 0x00, 0x08] };
      fetches s (.lfd 1 3 8) ∧ formAllowed (.lfd 1 3 8) s ∧ s.msrFp = true ∧
        s.config.admits (addressOf s (.lfd 1 3 8)) 8 .load = true ∧ s.pc = 0xFFFFFFFC#32) := by decide

/-- V-lfd-17 and V-lfd-5: an address above the last that fits, and a range that reaches the top. -/
theorem witness_AccessPastTheTopFaults :
    2 ^ 32 < (0xFFFFFFF9#32).toNat + 8 ∧
      (let s := readyState 0xC820FFFC#32;
        formAllowed (.lfd 1 0 (-4)) s ∧ s.msrFp = true ∧
          0xFFFFFFF8 < (addressOf s (.lfd 1 0 (-4))).toNat) ∧
      (⟨0xFFFFFFF8, 8, true, true⟩ : Region) ∈ testRegions ∧ 2 ^ 32 ≤ 0xFFFFFFF8 + 8 := by decide

theorem witness_StepRunsTheDecodedInstruction :
    fetches (readyState 0x7C2324AE#32) (.lfdx 1 3 4) := by decide

/-- A well-formed launch from which a step answers a next state. -/
theorem witness_StepChangesOnlyWhatIsListed :
    (readyState 0xCC230008#32).launchOk ∧
      after (step (readyState 0xCC230008#32)) 1 3 =
        some (0x4000000000000000#64, 0x1008#64, 0x2004#32) := by decide

theorem witness_EveryStepKeepsLaunchWellFormed :
    (readyState 0xC8230008#32).launchOk ∧ stopOf (step (readyState 0xC8230008#32)) = none := by decide

theorem witness_MemoryIsConstantDuringARun :
    stopOf (exec (.lfd 1 3 8) (readyState 0xC8230008#32)) = none := by decide

theorem witness_AlignedLaunchStaysAligned : (readyState 0xC8230008#32).launchOk := by decide

/-- A run of one step that ends at `CODE_END`. -/
theorem witness_ProgramCounterNeverWraps :
    let s := testState [0xC8230008#32] [(3, 0x1000#64)]
    stopOf (step s) = none ∧ (run 1 s).state.pc = 0x2004#32 ∧ run 1 s = .final (run 1 s).state := by
  decide

theorem witness_NoStepAtTheEndOfTheRun : State.reset.pc = State.reset.config.codeEnd := by decide

theorem witness_PlacedWordIsRunNext : State.reset.launchOk ∧ (readyState 0#32).launchOk := by decide

/-- The premises of the statement on the next load, the state between the two steps being that of the
run after one. -/
abbrev nextLoadPremises (s t : State) (i j : Instr) (ra : GprNum) (base sum : Double) : Prop :=
  updatedBase i = some ra ∧ baseOf j = ra ∧ (ra ≠ 0 ∨ updatedBase j = some ra) ∧ fetches s i ∧
    nextOf (step s) = some t ∧ fetches t j ∧
      base = (if s.config.raUpdateFull64 then sumOf s i else (addressOf s i).setWidth 64) ∧
        sum = base + offsetOf (s.setGpr ra base) j ∧
          s.config.admits (sum.setWidth 32) 8 .load = true ∧ t.pc ≠ 0xFFFFFFFC#32

/-- `lfdu f1, 8(r3)` then `lfd f5, 8(r3)`. -/
theorem witness_UpdatedBaseFeedsTheNextLoad_lfd :
    let s := readyState 0xCC230008#32
    nextLoadPremises s (run 1 s).state (.lfdu 1 3 8) (.lfd 5 3 8) 3 0x1008#64 0x1010#64 := by decide

/-- `lfdu f1, 8(r3)` then `lfdx f1, r3, r4`, which loads the same FD again. -/
theorem witness_UpdatedBaseFeedsTheNextLoad_lfdx :
    let s := testState [0xCC230008#32, 0x7C2324AE#32, 0#32] [(3, 0x1000#64), (4, 8#64)]
    nextLoadPremises s (run 1 s).state (.lfdu 1 3 8) (.lfdx 1 3 4) 3 0x1008#64 0x1010#64 := by decide

/-- `lfdux f5, r6, r7` then `lfdux f5, r6, r6`, whose offset register is the updated base. -/
theorem witness_UpdatedBaseFeedsTheNextLoad_lfdux :
    let s := testState [0x7CA63CEE#32, 0x7CA634EE#32, 0#32] [(6, 0xFFFFFFFFFFFFFFF8#64), (7, 0x1010#64)]
    nextLoadPremises s (run 1 s).state (.lfdux 5 6 7) (.lfdux 5 6 6) 6 0x1008#64 0x2010#64 := by decide

/-- `lfdu f1, 8(r0)` twice, over `r0`, under `asInterpreter` and `RA_UPDATE_FULL64`. -/
theorem witness_UpdatedBaseFeedsTheNextLoad_zero :
    let s := (testState [0xCC200008#32, 0xCC200008#32, 0#32] [(0, 0x1000#64)]).withPolicies
      .asInterpreter true
    nextLoadPremises s (run 1 s).state (.lfdu 1 0 8) (.lfdu 1 0 8) 0 0x1008#64 0x1010#64 := by decide

/-- Two states that differ in the high half of `r3` and in the setting agree. -/
theorem witness_HighHalvesNeverMatter :
    lowHalvesAgree (readyState 0xCC230008#32)
      (((readyState 0xCC230008#32).setGpr 3 0xFFFFFFFF00001000#64).withPolicies .refuse true) := by
  decide

theorem witness_SettingsAgreeOnSmallSums :
    let s := readyState 0xCC230008#32
    (sumOf s (.lfdu 1 3 8)).toNat < 2 ^ 32 ∧ s.config.raUpdateFull64 = false ∧
      stopOf (exec (.lfdu 1 3 8) s) = none := by decide

end Sys2Proof.Machine
end

/-! The frame of a step (R23), and the fetched word as R39 writes it. -/
section

namespace Sys2Proof.Machine

/-- A byte put behind a word is the least significant of its bytes (R31). -/
theorem toNat_append_byte {n : Nat} (x : BitVec n) (b : Byte) :
    (x ++ b).toNat = x.toNat * 256 + b.toNat := by
  rw [BitVec.toNat_append, ← Nat.shiftLeft_add_eq_or_of_lt b.isLt, Nat.shiftLeft_eq]

/-- The 4-byte read of the fetch is the concatenation of R39. -/
theorem Memory.read32_eq_memRead4 (m : Memory) (a : Nat) : m.read32 a = memRead4 m a := by
  have hsum : (memRead4 m a).toNat = m.readBE a 4 := by
    simp [memRead4, toNat_append_byte, Memory.readBE, Memory.bytes, bigEndian, Nat.add_assoc]
  rw [Memory.read32, ← hsum, BitVec.ofNat_toNat, BitVec.setWidth_eq]

/-! ## What a completed instruction leaves unchanged (R12, R13) -/

section
variable {i : Instr} {s : State} {v : Double}

theorem completedState_readFpr_of_ne {n : FprNum} (h : n ≠ fdOf i) :
    (completedState i s v).readFpr n = s.readFpr n := by
  cases i <;> simpa [completedState, fdOf] using State.setFpr_readFpr_of_ne s _ n v h

theorem completedState_readGpr_of_ne {n : GprNum} (h : updatedBase i ≠ some n) :
    (completedState i s v).readGpr n = s.readGpr n := by
  cases i with
  | lfd => simp [completedState]
  | lfdx => simp [completedState]
  | lfdu _ ra _ =>
    have hne : n ≠ ra := fun e => h (congrArg some e.symm)
    simp [completedState, State.setGpr_readGpr_of_ne _ _ _ _ hne]
  | lfdux _ ra _ =>
    have hne : n ≠ ra := fun e => h (congrArg some e.symm)
    simp [completedState, State.setGpr_readGpr_of_ne _ _ _ _ hne]

/-- An instruction that completes changes its floating-point register, in the update forms its base
register, and `pc` (R23). -/
theorem completedState_sameBut : sameBut (fdOf i) (updatedBase i) s (completedState i s v) :=
  ⟨fun _ => completedState_readFpr_of_ne, fun _ => completedState_readGpr_of_ne,
    completedState_msrFp i s v, completedState_config i s v,
    fun _ => congrArg (Memory.read · _) (completedState_mem i s v)⟩

end

/-- Settles O28, by the frame of the one state a step can answer with. -/
theorem stepChangesOnlyWhatIsListed : Obligations.StepChangesOnlyWhatIsListed := by
  intro s t h
  obtain ⟨i, hend, halign, hfetch, hdecode, hcompletes, rfl⟩ := step_next h
  rw [Memory.read32_eq_memRead4] at hdecode
  exact ⟨i, ⟨hend, halign, hfetch, hdecode⟩, hcompletes, completedState_sameBut,
    completedState_pc i s _⟩

end Sys2Proof.Machine
end

/-! The data read is big-endian and needs no alignment (R31, R35, R93). -/
section

namespace Sys2Proof.Machine

/-! ## The value of a read (R31) -/

/-- The 8-byte read is the concatenation of R31. -/
theorem Memory.read64_eq_memRead8 (m : Memory) (a : Nat) : m.read64 a = memRead8 m a := by
  have hsum : (memRead8 m a).toNat = m.readBE a 8 := by
    simp [memRead8, toNat_append_byte, Memory.readBE, Memory.bytes, bigEndian, Nat.add_assoc]
  rw [Memory.read64, ← hsum, BitVec.ofNat_toNat, BitVec.setWidth_eq]

/-- A read of `n` bytes is a number of `n` base-256 digits. -/
theorem Memory.readBE_lt (m : Memory) (a n : Nat) : m.readBE a n < 256 ^ n := by
  induction n generalizing a with
  | zero => simp
  | succ n ih =>
    have hbyte : (m.read a).toNat + 1 ≤ 256 := (m.read a).isLt
    calc m.readBE a (n + 1)
        = (m.read a).toNat * 256 ^ n + m.readBE (a + 1) n := m.readBE_succ a n
      _ < (m.read a).toNat * 256 ^ n + 256 ^ n := Nat.add_lt_add_left (ih (a + 1)) _
      _ = ((m.read a).toNat + 1) * 256 ^ n := (Nat.succ_mul _ _).symm
      _ ≤ 256 * 256 ^ n := Nat.mul_le_mul_right _ hbyte
      _ = 256 ^ (n + 1) := (pow_succ' 256 n).symm

/-- The first byte is the most significant digit of a read. -/
theorem Memory.readBE_succ_div (m : Memory) (a n : Nat) :
    m.readBE a (n + 1) / 256 ^ n = (m.read a).toNat := by
  rw [Memory.readBE_succ, Nat.mul_comm, Nat.mul_add_div (by positivity),
    Nat.div_eq_of_lt (m.readBE_lt (a + 1) n), Nat.add_zero]

/-- The first byte does not reach into the digits below it. -/
theorem Memory.readBE_succ_digit (m : Memory) (a : Nat) {n e : Nat} (h : e < n) :
    m.readBE a (n + 1) / 256 ^ e % 256 = m.readBE (a + 1) n / 256 ^ e % 256 := by
  obtain ⟨j, rfl⟩ := Nat.exists_eq_add_of_lt h
  have hsplit : (m.read a).toNat * 256 ^ (e + j + 1) =
      256 ^ e * (256 * ((m.read a).toNat * 256 ^ j)) := by ring
  rw [Memory.readBE_succ, hsplit, Nat.mul_add_div (by positivity), Nat.mul_add_mod]

/-- The byte at `a + k` is the digit `k` places below the most significant of the `n`. -/
theorem Memory.readBE_digit (m : Memory) (a : Nat) {n k : Nat} (h : k < n) :
    m.readBE a n / 256 ^ (n - 1 - k) % 256 = (m.read (a + k)).toNat := by
  induction n generalizing a k with
  | zero => exact absurd h (Nat.not_lt_zero k)
  | succ n ih =>
    cases k with
    | zero =>
      rw [Nat.add_sub_cancel, Nat.sub_zero, Memory.readBE_succ_div, Nat.add_zero]
      exact Nat.mod_eq_of_lt (m.read a).isLt
    | succ k =>
      have hk : k < n := Nat.lt_of_succ_lt_succ h
      have hexp : n + 1 - 1 - (k + 1) = n - 1 - k := by omega
      have haddr : a + (k + 1) = a + 1 + k := by omega
      rw [hexp, haddr, Memory.readBE_succ_digit m a (by omega), ih (a + 1) hk]

/-- Settles O9: bits `8(n-1-k)` up are the base-256 digit `n-1-k`. -/
theorem readsAreBigEndian : Obligations.ReadsAreBigEndian := by
  refine ⟨Memory.read64_eq_memRead8, fun m a n k hk => ?_⟩
  rw [pow_mul, pow_mul]
  exact ⟨m.readBE_lt a n, m.readBE_digit a hk⟩

/-! ## The converse of `exec_next`, and the faults of an instruction -/

/-- An instruction that nothing stops answers with its completed state: no condition is put on the
address beyond the admission of the read (R35). -/
theorem exec_of_completes {i : Instr} {s : State} (h : completes i s) :
    exec i s = .next (completedState i s (s.mem.read64 (addressOf s i).toNat)) := by
  obtain ⟨hform, hfp, hadmit, hpc⟩ := h
  rcases exec_cases i s with ⟨-, e⟩ | ⟨hbad, -⟩
  · rw [e]
    rcases loadDouble_cases s (addressOf s i) (completedState i s) with
      ⟨-, -, -, e⟩ | ⟨hoff, -⟩ | ⟨-, hno, -⟩ | ⟨-, -, hlast, -⟩
    · exact e
    · exact absurd (hfp.symm.trans hoff) (by decide)
    · exact absurd (hadmit.symm.trans hno) (by decide)
    · exact absurd hlast hpc
  · exact absurd hform hbad

/-- The only faults an instruction answers with (R90, R92). -/
theorem exec_fault {i : Instr} {s : State} {f : Fault} (h : exec i s = .fault f) :
    (f = .fpUnavailable ∧ s.msrFp = false) ∨
      (f = .memFault (addressOf s i) ∧ s.config.admits (addressOf s i) 8 .load = false) := by
  rcases exec_cases i s with ⟨-, e⟩ | ⟨-, e⟩ <;> rw [e] at h
  · rcases loadDouble_cases s (addressOf s i) (completedState i s) with
      ⟨-, -, -, e⟩ | ⟨hoff, e⟩ | ⟨-, hno, e⟩ | ⟨-, -, -, e⟩ <;> rw [e] at h <;> cases h
    · exact .inl ⟨rfl, hoff⟩
    · exact .inr ⟨rfl, hno⟩
  · cases h

/-- Settles O20, by what a completing instruction leaves in FD and the list of an instruction's
faults. -/
theorem misalignedLoadIsPerformed : Obligations.MisalignedLoadIsPerformed := by
  refine ⟨fun i s h => ⟨_, exec_of_completes h, ?_⟩, fun i s f => exec_fault⟩
  rw [completedState_readFpr_fd, Memory.read64_eq_memRead8]

end Sys2Proof.Machine
end

/-! Decoding as selection by mask and match, and the range of the displacement (R54, R56). -/
section

namespace Sys2Proof

/-! ## The decoder, read backwards -/

/-- The word selects the row of the instruction, by OPCD and in form X by XO and Rc, and its fields are
the operands (R51 to R53). -/
def Instr.standsIn (w : Word) : Instr → Prop
  | .lfd frt ra d => opcdField w = 50#6 ∧ frt = frtField w ∧ ra = raField w ∧ d = dField w
  | .lfdu frt ra d => opcdField w = 51#6 ∧ frt = frtField w ∧ ra = raField w ∧ d = dField w
  | .lfdux frt ra rb =>
    (opcdField w = 31#6 ∧ xoField w = 631#10 ∧ rcField w = 0#1) ∧
      frt = frtField w ∧ ra = raField w ∧ rb = rbField w
  | .lfdx frt ra rb =>
    (opcdField w = 31#6 ∧ xoField w = 599#10 ∧ rcField w = 0#1) ∧
      frt = frtField w ∧ ra = raField w ∧ rb = rbField w

/-- A word decodes to the one instruction that stands in it. -/
theorem decode_eq_ok_iff {w : Word} {i : Instr} : decode w = .ok i ↔ i.standsIn w := by
  constructor
  · intro h
    rcases decode_cases w with
      ⟨ho, e⟩ | ⟨ho, e⟩ | ⟨ho, hx, hc, e⟩ | ⟨ho, hx, hc, e⟩ | ⟨-, e⟩ <;> rw [e] at h <;> cases h
    · exact ⟨ho, rfl, rfl, rfl⟩
    · exact ⟨ho, rfl, rfl, rfl⟩
    · exact ⟨⟨ho, hx, hc⟩, rfl, rfl, rfl⟩
    · exact ⟨⟨ho, hx, hc⟩, rfl, rfl, rfl⟩
  · intro h
    cases i with
    | lfd => obtain ⟨ho, rfl, rfl, rfl⟩ := h; simp [decode, ho]
    | lfdu => obtain ⟨ho, rfl, rfl, rfl⟩ := h; simp [decode, ho]
    | lfdux => obtain ⟨⟨ho, hx, hc⟩, rfl, rfl, rfl⟩ := h; simp [decode, decodeX, ho, hx, hc]
    | lfdx => obtain ⟨⟨ho, hx, hc⟩, rfl, rfl, rfl⟩ := h; simp [decode, decodeX, ho, hx, hc]

/-- An instruction stands in its own word. -/
theorem standsIn_encode (i : Instr) : i.standsIn (encode i) := by
  cases i with
  | lfd frt ra d =>
    obtain ⟨ho, hf, ha, hd⟩ := Laws.formD_fields 50#6 frt ra d
    exact ⟨ho, hf.symm, ha.symm, hd.symm⟩
  | lfdu frt ra d =>
    obtain ⟨ho, hf, ha, hd⟩ := Laws.formD_fields 51#6 frt ra d
    exact ⟨ho, hf.symm, ha.symm, hd.symm⟩
  | lfdux frt ra rb =>
    obtain ⟨ho, hf, ha, hb, hx, hc⟩ := Laws.formX_fields 31#6 frt ra rb 631#10 0#1
    exact ⟨⟨ho, hx, hc⟩, hf.symm, ha.symm, hb.symm⟩
  | lfdx frt ra rb =>
    obtain ⟨ho, hf, ha, hb, hx, hc⟩ := Laws.formX_fields 31#6 frt ra rb 599#10 0#1
    exact ⟨⟨ho, hx, hc⟩, hf.symm, ha.symm, hb.symm⟩

theorem decode_encode (i : Instr) : decode (encode i) = .ok i :=
  decode_eq_ok_iff.mpr (standsIn_encode i)

/-! ## The masks of R56: what is left of a word is its row's opcodes, with zero operands -/

theorem and_maskD (w : Word) : w &&& 0xFC000000#32 = formD (opcdField w) 0 0 0 := by
  apply BitVec.eq_of_getLsbD_eq
  intro k hk
  interval_cases k <;> simp [formD, placeField, opcdField]

theorem and_maskX (w : Word) :
    w &&& 0xFC0007FF#32 = formX (opcdField w) 0 0 0 (xoField w) (rcField w) := by
  apply BitVec.eq_of_getLsbD_eq
  intro k hk
  interval_cases k <;> simp [formX, placeField, opcdField, xoField, rcField]

/-- The form D mask compares OPCD. -/
theorem and_maskD_eq_iff {w : Word} {o : BitVec 6} :
    w &&& 0xFC000000#32 = formD o 0 0 0 ↔ opcdField w = o := by
  rw [and_maskD]
  constructor
  · intro h
    obtain ⟨ho, -⟩ := Laws.formD_fields (opcdField w) 0 0 0
    obtain ⟨ho', -⟩ := Laws.formD_fields o 0 0 0
    rw [h] at ho
    exact ho.symm.trans ho'
  · rintro rfl
    rfl

/-- The form X mask compares OPCD, XO and Rc. -/
theorem and_maskX_eq_iff {w : Word} {o : BitVec 6} {x : BitVec 10} {c : BitVec 1} :
    w &&& 0xFC0007FF#32 = formX o 0 0 0 x c ↔ opcdField w = o ∧ xoField w = x ∧ rcField w = c := by
  rw [and_maskX]
  constructor
  · intro h
    obtain ⟨ho, -, -, -, hx, hc⟩ := Laws.formX_fields (opcdField w) 0 0 0 (xoField w) (rcField w)
    obtain ⟨ho', -, -, -, hx', hc'⟩ := Laws.formX_fields o 0 0 0 x c
    rw [h] at ho hx hc
    exact ⟨ho.symm.trans ho', hx.symm.trans hx', hc.symm.trans hc'⟩
  · rintro ⟨rfl, rfl, rfl⟩
    rfl

/-- The match of each row is the word of its instruction with every operand field zero (R56). -/
theorem encode_zero_operands :
    encode (.lfd 0 0 0) = 0xC8000000#32 ∧ encode (.lfdu 0 0 0) = 0xCC000000#32 ∧
      encode (.lfdx 0 0 0) = 0x7C0004AE#32 ∧ encode (.lfdux 0 0 0) = 0x7C0004EE#32 := by
  decide

namespace Machine

/-- A form the policy does not let through is refused (R59). -/
theorem exec_of_not_formAllowed {i : Instr} {s : State} (h : ¬ formAllowed i s) :
    exec i s = .refused .invalidForm := by
  rcases exec_cases i s with ⟨hform, -⟩ | ⟨-, e⟩
  · exact absurd hform h
  · exact e

/-- Under the policy `refuse` only the valid forms are let through. -/
theorem not_formAllowed {i : Instr} {s : State} (hi : i.wellFormed = false)
    (hs : s.config.invalidForm = .refuse) : ¬ formAllowed i s := by
  simp [hi, hs]

/-- Settles O3: the masks compare the fields the decoder selects by, and RA = 0 is an invalid form. -/
theorem decodeIsMaskAndMatch : Obligations.DecodeIsMaskAndMatch := by
  obtain ⟨hlfd, hlfdu, hlfdx, hlfdux⟩ := encode_zero_operands
  refine ⟨fun w frt ra d => ?_, fun w frt ra d => ?_, fun w frt ra rb => ?_, fun w frt ra rb => ?_,
    encode_zero_operands, by decide, fun s frt d rb hs => ⟨?_, ?_⟩⟩
  · rw [← hlfd]
    exact decode_eq_ok_iff.trans (and_congr_left' and_maskD_eq_iff.symm)
  · rw [← hlfdu]
    exact decode_eq_ok_iff.trans (and_congr_left' and_maskD_eq_iff.symm)
  · rw [← hlfdx]
    exact decode_eq_ok_iff.trans (and_congr_left' and_maskX_eq_iff.symm)
  · rw [← hlfdux]
    exact decode_eq_ok_iff.trans (and_congr_left' and_maskX_eq_iff.symm)
  · exact exec_of_not_formAllowed (not_formAllowed rfl hs)
  · exact exec_of_not_formAllowed (not_formAllowed rfl hs)

/-! ## The displacement (R54) -/

/-- The operand is the number in the field: not scaled. -/
theorem operandD_toInt (d : Disp) : (operandD d).toInt = d.toInt :=
  BitVec.toInt_signExtend_of_le (by decide)

/-- The bits above the field are copies of its sign bit. -/
theorem operandD_getLsbD_of_ge {d : Disp} {k : Nat} (hlo : 16 ≤ k) (hhi : k < 64) :
    (operandD d).getLsbD k = d.getLsbD 15 := by
  rw [operandD, BitVec.getLsbD_signExtend, decide_eq_true hhi, if_neg (Nat.not_lt.mpr hlo),
    Bool.true_and, BitVec.msb_eq_getLsbD_last]

/-- Settles O6: sign extension keeps the number, and every number of the range fits in the field. -/
theorem displacementIsSignedAndUnscaled : Obligations.DisplacementIsSignedAndUnscaled := by
  refine ⟨fun w k hk => ?_, fun d => ⟨d.le_toInt, Int.le_of_lt_add_one d.toInt_lt, operandD_toInt d⟩,
    fun d k => operandD_getLsbD_of_ge, fun frt ra x hlo hhi => ⟨BitVec.ofInt 16 x, ?_, ?_, ?_⟩⟩
  · rw [dField, BitVec.getLsbD_extractLsb', decide_eq_true hk, Bool.true_and, Nat.zero_add]
  · rw [operandD_toInt]
    exact BitVec.toInt_ofInt_eq_self (by decide) hlo (Int.lt_add_one_of_le hhi)
  · exact decode_encode _
  · exact decode_encode _

end Machine

end Sys2Proof
end

/-! The disabled floating-point unit stops every load before it writes (R90, R96). -/
section

namespace Sys2Proof.Machine

/-- The enable is the first condition of the load: neither the address nor the registers matter (R90). -/
theorem loadDouble_of_msrFp_false {s : State} (h : s.msrFp = false) (ea : Address)
    (finish : Double → State) : loadDouble s ea finish = .fault .fpUnavailable :=
  if_pos h

/-- A form that is not refused first finds the unit disabled (R90, R95). -/
theorem exec_of_msrFp_false {i : Instr} {s : State} (hfp : s.msrFp = false) (hform : formAllowed i s) :
    exec i s = .fault .fpUnavailable := by
  rcases exec_cases i s with ⟨-, e⟩ | ⟨hbad, -⟩
  · exact e.trans (loadDouble_of_msrFp_false hfp _ _)
  · exact absurd hform hbad

/-- A step that comes to an instruction answers what the instruction answers (R113). -/
theorem step_of_fetches {i : Instr} {s : State} (h : fetches s i) : step s = exec i s := by
  obtain ⟨hend, halign, hfetch, hdecode⟩ := h
  rw [← Memory.read32_eq_memRead4] at hdecode
  simp [step, fetchAndRun, hend, halign, hfetch, hdecode]

/-- A run whose first step faults stands in the state that step was asked in (R96, R97). -/
theorem run_succ_of_fault {s : State} {f : Fault} (hend : ¬ s.final) (h : step s = .fault f) (k : Nat) :
    run (k + 1) s = .fault s f := by
  rw [run, if_neg hend, h]

/-- Settles O22: the step answers the fault of the instruction, and the run stops there. -/
theorem disabledUnitRaisesUnavailable : Obligations.DisabledUnitRaisesUnavailable := by
  refine ⟨fun i s => exec_of_msrFp_false, fun i s k hfp hform hfetches => ?_⟩
  have hstep : step s = .fault .fpUnavailable :=
    (step_of_fetches hfetches).trans (exec_of_msrFp_false hfp hform)
  exact run_succ_of_fault hfetches.1 hstep k

end Sys2Proof.Machine
end

/-! The encoder against the decoder, and the words of no row (R50 to R53, R56, R61). -/
section

namespace Sys2Proof

/-! ## A word is made of its fields (R52, R53) -/

theorem formD_of_fields (w : Word) :
    formD (opcdField w) (frtField w) (raField w) (dField w) = w := by
  apply BitVec.eq_of_getLsbD_eq
  intro k hk
  interval_cases k <;> simp [formD, placeField, opcdField, frtField, raField, dField]

theorem formX_of_fields (w : Word) :
    formX (opcdField w) (frtField w) (raField w) (rbField w) (xoField w) (rcField w) = w := by
  apply BitVec.eq_of_getLsbD_eq
  intro k hk
  interval_cases k <;>
    simp [formX, placeField, opcdField, frtField, raField, rbField, xoField, rcField]

/-- Only the word of an instruction has the instruction standing in it. -/
theorem encode_of_standsIn {w : Word} {i : Instr} (h : i.standsIn w) : encode i = w := by
  cases i with
  | lfd =>
    obtain ⟨ho, rfl, rfl, rfl⟩ := h
    rw [encode, ← ho, formD_of_fields]
  | lfdu =>
    obtain ⟨ho, rfl, rfl, rfl⟩ := h
    rw [encode, ← ho, formD_of_fields]
  | lfdux =>
    obtain ⟨⟨ho, hx, hc⟩, rfl, rfl, rfl⟩ := h
    rw [encode, ← ho, ← hx, ← hc, formX_of_fields]
  | lfdx =>
    obtain ⟨⟨ho, hx, hc⟩, rfl, rfl, rfl⟩ := h
    rw [encode, ← ho, ← hx, ← hc, formX_of_fields]

/-! ## The bytes of a word (R39) -/

/-- Four bytes, most significant first, are the concatenation of R39. -/
theorem bigEndian_four (b0 b1 b2 b3 : Byte) :
    BitVec.ofNat 32 (bigEndian [b0, b1, b2, b3]) = b0 ++ b1 ++ b2 ++ b3 := by
  have hsum : (b0 ++ b1 ++ b2 ++ b3).toNat = bigEndian [b0, b1, b2, b3] := by
    simp [Machine.toNat_append_byte, bigEndian]
  rw [← hsum, BitVec.ofNat_toNat, BitVec.setWidth_eq]

/-- The bits from `lo + 8` up and the byte at bit `lo` below them are the bits from `lo` up. -/
theorem extractLsb'_append_byte {m : Nat} (x : BitVec m) (lo n : Nat) :
    x.extractLsb' (lo + 8) n ++ x.extractLsb' lo 8 = x.extractLsb' lo (n + 8) :=
  BitVec.extractLsb'_append_extractLsb'_eq_extractLsb' rfl

/-- A word is the concatenation of its four bytes. -/
theorem concat_bytesOfWord (w : Word) :
    w.extractLsb' 24 8 ++ w.extractLsb' 16 8 ++ w.extractLsb' 8 8 ++ w.extractLsb' 0 8 = w := by
  iterate 3 rw [extractLsb'_append_byte]
  exact BitVec.extractLsb'_eq_self

/-- Decoding the bytes of a word decodes the word and hands back what follows. -/
theorem decodeBytes_bytesOfWord {w : Word} {i : Instr} (h : decode w = .ok i) (rest : List Byte) :
    decodeBytes (bytesOfWord w ++ rest) = .ok (i, rest) := by
  simp [bytesOfWord, decodeBytes, bigEndian_four, concat_bytesOfWord, h]

namespace Machine

/-- Settles O1: the instruction stands in its own word, and the bytes of a word are the word. -/
theorem decodeInvertsEncode : Obligations.DecodeInvertsEncode :=
  fun i => ⟨decode_encode i, decodeBytes_bytesOfWord (decode_encode i)⟩

/-- Settles O2: opcodes and operand fields together are all the bits of the word. -/
theorem encodeInvertsDecode : Obligations.EncodeInvertsDecode :=
  fun _ _ h => encode_of_standsIn (decode_eq_ok_iff.mp h)

/-! ## Words of no row (R61) -/

/-- A form X word with source bit 31 set is of no row (R58). -/
theorem decode_of_rc_set {w : Word} (ho : opcdField w = 31#6) (hrc : rcField w ≠ 0#1) :
    decode w = .error (.notInSpec w) := by
  simp [decode, decodeX, ho, hrc]

/-- The Rc field is the least significant bit of the word. -/
theorem rcField_ne_zero {w : Word} (h : w.getLsbD 0 = true) : rcField w ≠ 0#1 := by
  intro h0
  have hbit : (rcField w).getLsbD 0 = w.getLsbD 0 := by simp [rcField]
  rw [h0, h] at hbit
  exact absurd hbit (by decide)

/-- A word under none of the four masks and matches of R56 is not decoded. -/
theorem decode_of_no_match {w : Word} (hlfd : w &&& 0xFC000000#32 ≠ 0xC8000000#32)
    (hlfdu : w &&& 0xFC000000#32 ≠ 0xCC000000#32) (hlfdx : w &&& 0xFC0007FF#32 ≠ 0x7C0004AE#32)
    (hlfdux : w &&& 0xFC0007FF#32 ≠ 0x7C0004EE#32) : decode w = .error (.notInSpec w) := by
  obtain ⟨elfd, elfdu, elfdx, elfdux⟩ := encode_zero_operands
  rcases decode_cases w with ⟨ho, -⟩ | ⟨ho, -⟩ | ⟨ho, hx, hc, -⟩ | ⟨ho, hx, hc, -⟩ | ⟨-, e⟩
  · exact absurd ((and_maskD_eq_iff.mpr ho).trans elfd) hlfd
  · exact absurd ((and_maskD_eq_iff.mpr ho).trans elfdu) hlfdu
  · exact absurd ((and_maskX_eq_iff.mpr ⟨ho, hx, hc⟩).trans elfdx) hlfdx
  · exact absurd ((and_maskX_eq_iff.mpr ⟨ho, hx, hc⟩).trans elfdux) hlfdux
  · exact e

/-- A step that fetches a word of no row is refused with the word (R61, R113). -/
theorem step_of_decode_error {s : State} {r : DecodeReject} (hend : s.pc ≠ s.config.codeEnd)
    (halign : s.pc.toNat % 4 = 0) (hfetch : s.config.admits s.pc 4 .fetch = true)
    (hdecode : decode (memRead4 s.mem s.pc.toNat) = .error r) :
    step s = .refused (.notInSpec (memRead4 s.mem s.pc.toNat)) := by
  simp [step, fetchAndRun, hend, halign, hfetch, Memory.read32_eq_memRead4, hdecode]

/-- Settles O4: a word that the decoder selects has the match of its row under the mask. -/
theorem wordOutsideTheTableIsRefused : Obligations.WordOutsideTheTableIsRefused := by
  refine ⟨fun w hlfd hlfdu hlfdx hlfdux => ?_,
    fun w ho hbit => decode_of_rc_set ho (rcField_ne_zero hbit)⟩
  have hdecode := decode_of_no_match hlfd hlfdu hlfdx hlfdux
  refine ⟨hdecode, fun s hend halign hfetch hw => ?_⟩
  subst hw
  exact step_of_decode_error hend halign hfetch hdecode

/-- Settles O5, by evaluating the decoder on the five words. -/
theorem writtenOutWordsDecode : Obligations.WrittenOutWordsDecode := by
  unfold Obligations.WrittenOutWordsDecode
  decide

/-- Settles O7: truncation is reduction modulo 2^32, which addition respects. -/
theorem addressIsTheSumOfLowHalves : Obligations.AddressIsTheSumOfLowHalves := by
  have hlow (base offset : Double) :
      truncate32 (addressSum base offset) = base.setWidth 32 + offset.setWidth 32 :=
    BitVec.setWidth_add base offset (by decide)
  refine fun base offset => ⟨?_, hlow base offset, fun base' offset' hb ho => ?_⟩
  · rw [truncate32, addressSum, BitVec.toNat_setWidth, BitVec.toNat_add]
    exact Nat.mod_mod_of_dvd _ (by decide)
  · rw [hlow, hlow, hb, ho]

end Machine

end Sys2Proof
end

/-! What a completing instruction answers (R70 to R77), and the bytes of the value it loads (R31). -/
section

namespace Sys2Proof.Machine

/-! ## The value loaded -/

/-- Eight bytes that are those of a pattern, most significant first, read as the pattern (R71). -/
theorem memRead8_of_bytes {m : Memory} {a : Nat} {v : Double}
    (h : ∀ k < 8, m.read (a + k) = v.extractLsb' (56 - 8 * k) 8) : memRead8 m a = v := by
  have h0 : m.read a = v.extractLsb' 56 8 := h 0 (by decide)
  rw [memRead8, h0, h 1 (by decide), h 2 (by decide), h 3 (by decide), h 4 (by decide),
    h 5 (by decide), h 6 (by decide), h 7 (by decide)]
  iterate 7 rw [extractLsb'_append_byte]
  exact BitVec.extractLsb'_eq_self

/-- The double at an address is the word there followed by the word four bytes up. -/
theorem memRead8_eq_append (m : Memory) (a : Nat) :
    memRead8 m a = memRead4 m a ++ memRead4 m (a + 4) := by
  apply BitVec.eq_of_toNat_eq
  rw [BitVec.toNat_append, ← Nat.shiftLeft_add_eq_or_of_lt (memRead4 m (a + 4)).isLt,
    Nat.shiftLeft_eq]
  simp only [memRead8, memRead4, toNat_append_byte, Nat.add_assoc, Nat.reduceAdd]
  omega

/-- Settles O10: the double is the two words, one after the other. -/
theorem fetchAndLoadShareBytes : Obligations.FetchAndLoadShareBytes := by
  intro m a
  rw [Memory.read64_eq_memRead8, memRead8_eq_append, Memory.read32_eq_memRead4,
    Memory.read32_eq_memRead4]
  exact ⟨BitVec.extractLsb'_append_eq_left, BitVec.extractLsb'_append_eq_right, rfl⟩

/-! ## What a completing instruction leaves behind -/

/-- An update form leaves the value of R73 in its base register. -/
theorem completedState_readGpr_base {i : Instr} {ra : GprNum} (h : updatedBase i = some ra) (s : State)
    (v : Double) : (completedState i s v).readGpr ra = raUpdate s (sumOf s i) := by
  cases i with
  | lfd => cases h
  | lfdx => cases h
  | lfdu => cases h; simp [completedState]
  | lfdux => cases h; simp [completedState]

/-- Everything about the answer of an instruction that nothing stops: FD, the updated base, `pc`, and
the frame (R23, R70). -/
theorem exec_spec {i : Instr} {s : State} (h : completes i s) :
    ∃ t, exec i s = .next t ∧ t.readFpr (fdOf i) = memRead8 s.mem (addressOf s i).toNat ∧
      (∀ ra, updatedBase i = some ra → t.readGpr ra = raUpdate s (sumOf s i)) ∧
        t.pc = s.pc + 4 ∧ sameBut (fdOf i) (updatedBase i) s t := by
  refine ⟨_, exec_of_completes h, ?_, fun ra hra => completedState_readGpr_base hra s _,
    completedState_pc i s _, completedState_sameBut⟩
  rw [completedState_readFpr_fd, Memory.read64_eq_memRead8]

/-- A form is allowed when, if it updates a base, the base field is not 0 or the policy is
`asInterpreter` (R59). -/
theorem formAllowed_iff {i : Instr} {s : State} :
    formAllowed i s ↔
      ∀ ra, updatedBase i = some ra → ra ≠ 0 ∨ s.config.invalidForm = .asInterpreter := by
  cases i <;> simp [formAllowed, Instr.wellFormed, updatedBase]

/-- An instruction without update is a valid form, whatever its operands (R59). -/
theorem formAllowed_of_plain {i : Instr} (h : updatedBase i = none) (s : State) : formAllowed i s :=
  formAllowed_iff.mpr fun ra hra => by rw [h] at hra; cases hra

/-- An update form over one register is allowed when that register is. -/
theorem formAllowed_of_updatedBase {i : Instr} {s : State} {ra : GprNum} (hi : updatedBase i = some ra)
    (h : ra ≠ 0 ∨ s.config.invalidForm = .asInterpreter) : formAllowed i s :=
  formAllowed_iff.mpr fun rb hrb => by rw [hi] at hrb; cases hrb; exact h

/-- Settles O15, as the case of `exec_spec` for `lfd`. -/
theorem lfdLoadsItsDouble : Obligations.LfdLoadsItsDouble := by
  rintro s frt ra d ea rfl hfp hadmit hpc
  obtain ⟨t, hexec, hfd, -, hnext, hframe⟩ :=
    exec_spec (i := .lfd frt ra d) ⟨formAllowed_of_plain rfl s, hfp, hadmit, hpc⟩
  exact ⟨t, hexec, hfd, hnext, hframe⟩

/-- Settles O16, as the case of `exec_spec` for `lfdu`. -/
theorem lfduLoadsAndUpdatesItsBase : Obligations.LfduLoadsAndUpdatesItsBase := by
  rintro s frt ra d sum ea rfl rfl hform hfp hadmit hpc
  obtain ⟨t, hexec, hfd, hbase, hnext, hframe⟩ :=
    exec_spec (i := .lfdu frt ra d) ⟨formAllowed_of_updatedBase rfl hform, hfp, hadmit, hpc⟩
  exact ⟨t, hexec, hfd, hbase ra rfl, hnext, hframe⟩

/-- Settles O17, as the case of `exec_spec` for `lfdux`. -/
theorem lfduxLoadsAndUpdatesItsBase : Obligations.LfduxLoadsAndUpdatesItsBase := by
  rintro s frt ra rb sum ea rfl rfl hform hfp hadmit hpc
  obtain ⟨t, hexec, hfd, hbase, hnext, hframe⟩ :=
    exec_spec (i := .lfdux frt ra rb) ⟨formAllowed_of_updatedBase rfl hform, hfp, hadmit, hpc⟩
  exact ⟨t, hexec, hfd, hbase ra rfl, hnext, hframe⟩

/-- Settles O18, as the case of `exec_spec` for `lfdx`. -/
theorem lfdxLoadsItsDouble : Obligations.LfdxLoadsItsDouble := by
  rintro s frt ra rb ea rfl hfp hadmit hpc
  obtain ⟨t, hexec, hfd, -, hnext, hframe⟩ :=
    exec_spec (i := .lfdx frt ra rb) ⟨formAllowed_of_plain rfl s, hfp, hadmit, hpc⟩
  exact ⟨t, hexec, hfd, hnext, hframe⟩

/-- Settles O21: FD is the concatenation of the bytes, and no bit of it is looked at. -/
theorem everyPatternLoadsUnchanged : Obligations.EveryPatternLoadsUnchanged := by
  intro i s v h hbytes
  obtain ⟨t, hexec, hfd, -⟩ := exec_spec h
  exact ⟨t, hexec, hfd.trans (memRead8_of_bytes hbytes)⟩

/-! ## The forms of R59 -/

/-- The only refusals an instruction answers with (R59, R16). -/
theorem exec_refused {i : Instr} {s : State} {r : Refusal} (h : exec i s = .refused r) :
    (r = .invalidForm ∧ ¬ formAllowed i s) ∨ (r = .pcWrap ∧ s.pc = lastPc) := by
  rcases exec_cases i s with ⟨-, e⟩ | ⟨hbad, e⟩ <;> rw [e] at h
  · rcases loadDouble_cases s (addressOf s i) (completedState i s) with
      ⟨-, -, -, e⟩ | ⟨-, e⟩ | ⟨-, -, e⟩ | ⟨-, -, hlast, e⟩ <;> rw [e] at h <;> cases h
    exact .inr ⟨rfl, hlast⟩
  · cases h
    exact .inl ⟨rfl, hbad⟩

/-- The refusal of an invalid form is the answer of no form that is let through. -/
theorem exec_ne_invalidForm {i : Instr} {s : State} (hform : formAllowed i s) :
    exec i s ≠ .refused .invalidForm := by
  intro h
  rcases exec_refused h with ⟨-, hbad⟩ | ⟨e, -⟩
  · exact hbad hform
  · cases e

/-- The default update is the address zero-extended (R73). -/
theorem raUpdate_of_not_full {s : State} (h : s.config.raUpdateFull64 = false) (sum : Double) :
    raUpdate s sum = (truncate32 sum).setWidth 64 := by
  simp [raUpdate, h]

/-- Settles O24: the policy decides the form alone, and the update forms take `r0` as the base. -/
theorem invalidFormFollowsThePolicy : Obligations.InvalidFormFollowsThePolicy := by
  refine ⟨fun i s hi hs => exec_of_not_formAllowed (not_formAllowed hi hs),
    fun i s hi => exec_ne_invalidForm (.inl hi), fun s frt d _ h => ?_, fun s frt rb _ h => ?_⟩
  · obtain ⟨t, hexec, hfd, hbase, -⟩ := exec_spec h
    exact ⟨t, hexec, hfd, fun hfull => (hbase 0 rfl).trans (raUpdate_of_not_full hfull _)⟩
  · obtain ⟨t, hexec, hfd, hbase, -⟩ := exec_spec h
    exact ⟨t, hexec, hfd, fun hfull => (hbase 0 rfl).trans (raUpdate_of_not_full hfull _)⟩

end Sys2Proof.Machine
end

/-! Two states side by side: what an answer depends on (R12, R38, R73). -/
section

namespace Sys2Proof.Machine

/-! ## Related states answer alike -/

section
variable {rel : State → State → Prop} {s t : State}

/-- Admission depends on the ranges alone (R36). -/
theorem Config.admits_congr {c c' : Config} (h : c.regions = c'.regions) (a : Address) (n : Nat)
    (kind : Access) : c.admits a n kind = c'.admits a n kind := by
  rw [Config.admits, Config.admits, h]

/-- A load at one address answers alike in two states that agree on what it tests. -/
theorem loadDouble_agree {f g : Double → State} (hfp : s.msrFp = t.msrFp)
    (hregions : s.config.regions = t.config.regions) (hpc : s.pc = t.pc) (hmem : s.mem = t.mem)
    (ea : Address) (hrel : ∀ v, rel (f v) (g v)) :
    answersAgree rel (loadDouble s ea f) (loadDouble t ea g) := by
  simp only [loadDouble, raiseFpUnavailable, raiseMemFault, hfp, hpc, hmem,
    Config.admits_congr hregions]
  split_ifs
  · rfl
  · rfl
  · rfl
  · exact hrel _

/-- An instruction answers alike in two states that agree on its address and on what it tests, if the
states it would leave are related. -/
theorem exec_agree {i : Instr} (hform : s.config.invalidForm = t.config.invalidForm)
    (hfp : s.msrFp = t.msrFp) (hregions : s.config.regions = t.config.regions) (hpc : s.pc = t.pc)
    (hmem : s.mem = t.mem) (haddr : addressOf s i = addressOf t i)
    (hrel : ∀ v, rel (completedState i s v) (completedState i t v)) :
    answersAgree rel (exec i s) (exec i t) := by
  have hiff : formAllowed i s ↔ formAllowed i t := by rw [formAllowed, formAllowed, hform]
  rcases exec_cases i s with ⟨hs, es⟩ | ⟨hs, es⟩ <;> rcases exec_cases i t with ⟨ht, et⟩ | ⟨ht, et⟩
  · rw [es, et, haddr]
    exact loadDouble_agree hfp hregions hpc hmem _ hrel
  · exact absurd (hiff.mp hs) ht
  · exact absurd (hiff.mpr ht) hs
  · rw [es, et]
    rfl

/-- A step answers alike in two states that agree on what the fetch looks at, if the instructions do. -/
theorem step_agree (hpc : s.pc = t.pc) (hend : s.config.codeEnd = t.config.codeEnd)
    (hregions : s.config.regions = t.config.regions) (hmem : s.mem = t.mem)
    (hexec : ∀ i, answersAgree rel (exec i s) (exec i t)) :
    answersAgree rel (step s) (step t) := by
  simp only [step, fetchAndRun, raiseMemFault, hpc, hend, hmem, Config.admits_congr hregions]
  split_ifs
  · rfl
  · rfl
  · rfl
  · cases decode (t.mem.read32 t.pc.toNat) with
    | ok i => exact hexec i
    | error => rfl

/-- A relation that every step keeps, and under which the runs of both states are over together, is
kept by runs. -/
theorem run_agree (hfinal : ∀ s t, rel s t → (s.final ↔ t.final))
    (hstep : ∀ s t, rel s t → answersAgree rel (step s) (step t)) (k : Nat) (h : rel s t) :
    runsAgree rel (run k s) (run k t) := by
  induction k generalizing s t with
  | zero =>
    simp only [run, hfinal s t h]
    split_ifs <;> exact h
  | succ k ih =>
    simp only [run, hfinal s t h]
    split_ifs
    · exact h
    · have hagree := hstep s t h
      cases hs : step s <;> cases ht : step t <;> rw [hs, ht] at hagree
      case next.next => exact ih hagree
      case fault.fault => exact ⟨h, hagree⟩
      case refused.refused => exact ⟨h, hagree⟩
      all_goals exact hagree.elim

end

/-! ## High halves (R38, R73) -/

/-- Only the low halves of the operands reach the address. -/
theorem truncate32_addressSum_congr {b b' o o' : Double} (hb : b'.setWidth 32 = b.setWidth 32)
    (ho : o'.setWidth 32 = o.setWidth 32) :
    truncate32 (addressSum b' o') = truncate32 (addressSum b o) := by
  obtain ⟨-, -, hcongr⟩ := addressIsTheSumOfLowHalves b o
  exact hcongr b' o' hb ho

theorem operandRA0_low {s t : State} {ra : GprNum}
    (h : (s.readGpr ra).setWidth 32 = (t.readGpr ra).setWidth 32) :
    (operandRA0 s ra).setWidth 32 = (operandRA0 t ra).setWidth 32 := by
  unfold operandRA0
  split_ifs
  · rfl
  · exact h

/-- States whose general registers have the same low halves form the same addresses. -/
theorem addressOf_congr_low {s t : State}
    (h : ∀ n, (s.readGpr n).setWidth 32 = (t.readGpr n).setWidth 32) (i : Instr) :
    addressOf s i = addressOf t i := by
  cases i with
  | lfd _ ra _ => exact truncate32_addressSum_congr (operandRA0_low (h ra)) rfl
  | lfdu _ ra _ => exact truncate32_addressSum_congr (h ra) rfl
  | lfdux _ ra rb => exact truncate32_addressSum_congr (h ra) (h rb)
  | lfdx _ ra rb => exact truncate32_addressSum_congr (operandRA0_low (h ra)) (h rb)

/-- Both settings of the update write the same low half: the address (R73). -/
theorem raUpdate_low (s : State) (sum : Double) : (raUpdate s sum).setWidth 32 = truncate32 sum := by
  unfold raUpdate
  split_ifs
  · rfl
  · simp

/-- The floating-point registers an instruction leaves depend on those before and on the value alone. -/
theorem completedState_fpr_congr {s t : State} (h : s.fpr = t.fpr) (i : Instr) (v : Double) :
    (completedState i s v).fpr = (completedState i t v).fpr := by
  cases i <;> simp [completedState, State.setFpr, h]

/-- An instruction that completes keeps two states the same but for high halves. -/
theorem completedState_lowHalvesAgree {s t : State} (h : lowHalvesAgree s t) (i : Instr) (v : Double) :
    lowHalvesAgree (completedState i s v) (completedState i t v) := by
  obtain ⟨hpc, hfpr, hfp, hmem, hregions, hend, hform, hlow⟩ := h
  simp only [lowHalvesAgree, completedState_pc, completedState_msrFp, completedState_mem,
    completedState_config]
  refine ⟨congrArg (· + 4) hpc, completedState_fpr_congr hfpr i v, hfp, hmem, hregions, hend, hform,
    fun n => ?_⟩
  by_cases hn : updatedBase i = some n
  · rw [completedState_readGpr_base hn, completedState_readGpr_base hn, raUpdate_low, raUpdate_low]
    exact addressOf_congr_low hlow i
  · rw [completedState_readGpr_of_ne hn, completedState_readGpr_of_ne hn]
    exact hlow n

/-- Settles O38: addresses and updates have the same low halves, and nothing else is looked at. -/
theorem highHalvesNeverMatterToAStep : Obligations.HighHalvesNeverMatterToAStep := by
  intro s t h
  have ⟨hpc, _, hfp, hmem, hregions, hend, hform, hlow⟩ := h
  exact step_agree hpc hend hregions hmem fun i =>
    exec_agree hform hfp hregions hpc hmem (addressOf_congr_low hlow i)
      (completedState_lowHalvesAgree h i)

/-- Settles O39, by induction on the number of steps allowed. -/
theorem highHalvesNeverMatterToARun : Obligations.HighHalvesNeverMatterToARun := by
  refine fun k s t h => run_agree (fun s t h => ?_) highHalvesNeverMatterToAStep k h
  obtain ⟨hpc, -, -, -, -, hend, -⟩ := h
  rw [State.final, State.final, hpc, hend]

/-- A sum below 2^32 is its own address zero-extended, so the setting does not matter (R73). -/
theorem raUpdate_of_small (s : State) {sum : Double} (h : sum.toNat < 2 ^ 32) :
    raUpdate s sum = sum := by
  unfold raUpdate
  split_ifs
  · rfl
  · apply BitVec.eq_of_toNat_eq
    rw [truncate32, BitVec.toNat_setWidth, BitVec.toNat_setWidth, Nat.mod_eq_of_lt h]
    omega

/-- The sum does not depend on the parameters of the run. -/
theorem sumOf_withConfig (s : State) (c : Config) (i : Instr) :
    sumOf { s with config := c } i = sumOf s i := by
  cases i <;> rfl

/-- Settles O40: the two settings write the same value to RA. -/
theorem settingsAgreeOnSmallSums : Obligations.SettingsAgreeOnSmallSums := by
  rintro i s s' hsmall - rfl
  have hsum := sumOf_withConfig s { s.config with raUpdateFull64 := true } i
  refine exec_agree rfl rfl rfl rfl rfl (congrArg truncate32 hsum.symm) fun v =>
    ⟨gpr_eq_of_readGpr_eq fun n => ?_, completedState_fpr_congr (by rfl) i v, ?_, ?_, ?_⟩
  · by_cases hn : updatedBase i = some n
    · rw [completedState_readGpr_base hn, completedState_readGpr_base hn, hsum,
        raUpdate_of_small _ hsmall, raUpdate_of_small _ hsmall]
    · rw [completedState_readGpr_of_ne hn, completedState_readGpr_of_ne hn]
      rfl
  · rw [completedState_pc, completedState_pc]
  · rw [completedState_msrFp, completedState_msrFp]
  · rw [completedState_mem, completedState_mem]

/-! ## The operands of each row (R12, R55) -/

/-- The sum is formed from the registers of the row. -/
theorem sumOf_congr {i : Instr} {s t : State} (h : ∀ n ∈ readsOf i, s.readGpr n = t.readGpr n) :
    sumOf s i = sumOf t i := by
  cases i with
  | lfd _ ra _ => by_cases hra : ra = 0 <;> simp_all [sumOf, readsOf, operandRA0]
  | lfdu => simp_all [sumOf, readsOf, operandRA]
  | lfdux => simp_all [sumOf, readsOf, operandRA, operandRB]
  | lfdx _ ra _ => by_cases hra : ra = 0 <;> simp_all [sumOf, readsOf, operandRA0, operandRB]

/-- Settles O19: the answer depends on the sum of the row's operands and on no other register. -/
theorem readsAndWritesOnlyItsOperands : Obligations.ReadsAndWritesOnlyItsOperands := by
  refine ⟨fun i s t hpc hfp hmem hconfig hreads => ?_, fun i s t h => ?_, fun i s h => ?_,
    fun _ _ _ _ _ => ⟨rfl, rfl, rfl, rfl⟩⟩
  · have hsum := sumOf_congr hreads
    refine exec_agree (congrArg _ hconfig) hfp (congrArg _ hconfig) hpc hmem
      (congrArg truncate32 hsum) fun v => ⟨?_, fun n hn => ?_⟩
    · rw [completedState_readFpr_fd, completedState_readFpr_fd]
    · rw [completedState_readGpr_base hn, completedState_readGpr_base hn, hsum, raUpdate, raUpdate,
        hconfig]
  · obtain ⟨-, rfl⟩ := exec_next h
    exact completedState_sameBut
  · obtain ⟨t, hexec, hfd, hbase, -⟩ := exec_spec h
    exact ⟨t, hexec, hfd, hbase⟩

/-- An instruction without update that does not read a register answers the same whatever is in it. -/
theorem exec_setGpr_unread {i : Instr} {n : GprNum} (hplain : updatedBase i = none)
    (hread : n ∉ readsOf i) (s : State) (v : Double) :
    answersAgree (fun t t' => t' = t.setGpr n v) (exec i s) (exec i (s.setGpr n v)) := by
  have hsum : sumOf s i = sumOf (s.setGpr n v) i := sumOf_congr fun m hm =>
    (State.setGpr_readGpr_of_ne s n m v fun e => hread (e ▸ hm)).symm
  refine exec_agree rfl rfl rfl rfl rfl (congrArg truncate32 hsum) fun x => ?_
  cases i with
  | lfd => rfl
  | lfdx => rfl
  | lfdu => cases hplain
  | lfdux => cases hplain

/-- Settles O8: the literal zero drops out of the sum, and `r0` is not among the registers read. -/
theorem literalZeroBaseIgnoresRegisterZero : Obligations.LiteralZeroBaseIgnoresRegisterZero := by
  refine ⟨?_, ?_, fun s v frt d => exec_setGpr_unread rfl (by simp [readsOf]) s v,
    fun s v frt rb hrb => exec_setGpr_unread rfl (by simpa [readsOf] using hrb.symm) s v, ?_, ?_⟩
  · rintro s frt d ea rfl hfp hadmit hpc
    obtain ⟨t, hexec, hfd, -⟩ :=
      lfdLoadsItsDouble s frt 0 d _ (by rw [if_pos rfl, zero_add]) hfp hadmit hpc
    exact ⟨t, hexec, hfd⟩
  · rintro s frt rb ea rfl hfp hadmit hpc
    obtain ⟨t, hexec, hfd, -⟩ :=
      lfdxLoadsItsDouble s frt 0 rb _ (by rw [if_pos rfl, zero_add]) hfp hadmit hpc
    exact ⟨t, hexec, hfd⟩
  · rintro s frt ra ea hra rfl hfp hadmit hpc
    obtain ⟨t, hexec, hfd, -⟩ :=
      lfdxLoadsItsDouble s frt ra 0 _ (by rw [if_neg hra]) hfp hadmit hpc
    exact ⟨t, hexec, hfd⟩
  · intro s frt ra sum ea hsum hea hform hfp hadmit hpc
    obtain ⟨t, hexec, hfd, hbase, -⟩ :=
      lfduxLoadsAndUpdatesItsBase s frt ra 0 sum ea hsum hea hform hfp hadmit hpc
    exact ⟨t, hexec, hfd, hbase⟩

end Sys2Proof.Machine
end

/-! What the model's memories and admission maps can be, and bytes written to memory (R7, R22, R36). -/
section

namespace Sys2Proof.Machine

/-! ## Bytes written (R7) -/

/-- Every byte after a list of bytes is written inside the address space. -/
theorem Memory.read_writeBytes {m : Memory} (h : m.wf) {a : Nat} {bs : List Byte}
    (ha : a + bs.length ≤ addressCount) (x : Nat) :
    (m.writeBytes a bs).read x =
      if a ≤ x ∧ x < a + bs.length then bs.getD (x - a) 0 else m.read x := by
  induction bs generalizing m a with
  | nil =>
    rw [if_neg (by simp)]
    rfl
  | cons b rest ih =>
    rw [List.length_cons] at ha ⊢
    rw [Memory.writeBytes, ih (Memory.write_keeps_wf h a b) (by omega),
      Memory.read_write h (by omega)]
    rcases Nat.lt_trichotomy a x with hlt | rfl | hgt
    · obtain ⟨j, rfl⟩ := Nat.exists_eq_add_of_lt hlt
      have hrest : a + j + 1 - (a + 1) = j := by omega
      have hcons : a + j + 1 - a = j + 1 := by omega
      have hin : (a + 1 ≤ a + j + 1 ∧ a + j + 1 < a + 1 + rest.length) ↔
          (a ≤ a + j + 1 ∧ a + j + 1 < a + (rest.length + 1)) := by omega
      rw [hrest, hcons, List.getD_cons_succ, if_neg (show a ≠ a + j + 1 by omega)]
      simp only [hin]
    · rw [if_neg (by omega), if_pos rfl, if_pos (by omega), Nat.sub_self, List.getD_cons_zero]
    · rw [if_neg (by omega), if_neg (by omega), if_neg (by omega)]

/-- Settles O14, by the read after each write. -/
theorem writtenBytesReadBack : Obligations.WrittenBytesReadBack :=
  fun _ a bs hwf ha => ⟨Memory.writeBytes_keeps_wf hwf a bs, Memory.read_writeBytes hwf ha⟩

/-! ## The canonical form determines the memory, and every memory has one (R22) -/

/-- The canonical form of a list with a first cell: that cell is listed, below the rest. -/
theorem Memory.wf_cons {x : Nat} {c : Byte} {rest : List Host.Cell} :
    (⟨(x, c) :: rest⟩ : Memory).wf ↔
      CellsAbove x rest ∧ (x < addressCount ∧ c ≠ unlistedByte) ∧ (⟨rest⟩ : Memory).wf := by
  simp only [Memory.wf, CellsAbove, List.pairwise_cons, List.forall_mem_cons]
  tauto

/-- An address listed nowhere reads as the unlisted byte. -/
theorem lookupCell_of_forall_ne {cells : List Host.Cell} {a : Nat} (h : ∀ p ∈ cells, p.1 ≠ a) :
    lookupCell cells a = unlistedByte := by
  induction cells with
  | nil => rfl
  | cons p rest ih =>
    obtain ⟨hp, hrest⟩ := List.forall_mem_cons.mp h
    rw [lookupCell, if_neg hp, ih hrest]

/-- Nothing is listed past the top of the address space. -/
theorem Memory.read_of_ge {m : Memory} (h : m.wf) {a : Nat} (ha : addressCount ≤ a) :
    m.read a = unlistedByte :=
  lookupCell_of_forall_ne fun p hp => by
    obtain ⟨hlt, -⟩ := h.2 p hp
    omega

/-- The first cell of a canonical list is missing from a list above it, which reads otherwise there. -/
theorem not_cellsAbove_of_reads_eq {x : Nat} {c : Byte} {cs ds : List Host.Cell}
    (hc : c ≠ unlistedByte) (h : ∀ a, lookupCell ((x, c) :: cs) a = lookupCell ds a) :
    ¬ CellsAbove x ds := by
  intro habove
  have hx := h x
  rw [lookupCell, if_pos rfl, lookupCell_of_above habove le_rfl] at hx
  exact hc hx

theorem cellsAbove_cons {x y : Nat} {d : Byte} {ds : List Host.Cell} (hxy : x < y)
    (h : CellsAbove y ds) : CellsAbove x ((y, d) :: ds) :=
  List.forall_mem_cons.mpr ⟨hxy, fun p hp => hxy.trans (h p hp)⟩

/-- The canonical list is determined by what is read: the least listed addresses are equal, with their
bytes, and so on upwards. -/
theorem cells_eq_of_reads_eq {cs ds : List Host.Cell} (hcs : (⟨cs⟩ : Memory).wf)
    (hds : (⟨ds⟩ : Memory).wf) (h : ∀ a, lookupCell cs a = lookupCell ds a) : cs = ds := by
  induction cs generalizing ds with
  | nil =>
    cases ds with
    | nil => rfl
    | cons q ds =>
      obtain ⟨-, ⟨-, hd⟩, -⟩ := Memory.wf_cons.mp hds
      exact absurd (by simp [CellsAbove]) (not_cellsAbove_of_reads_eq hd fun a => (h a).symm)
  | cons p cs ih =>
    obtain ⟨x, c⟩ := p
    obtain ⟨hx, ⟨-, hc⟩, hcs'⟩ := Memory.wf_cons.mp hcs
    cases ds with
    | nil => exact absurd (by simp [CellsAbove]) (not_cellsAbove_of_reads_eq hc h)
    | cons q ds =>
      obtain ⟨y, d⟩ := q
      obtain ⟨hy, ⟨-, hd⟩, hds'⟩ := Memory.wf_cons.mp hds
      rcases Nat.lt_trichotomy x y with hlt | rfl | hgt
      · exact absurd (cellsAbove_cons hlt hy) (not_cellsAbove_of_reads_eq hc h)
      · have hhead : c = d := by simpa [lookupCell] using h x
        have htail (a : Nat) : lookupCell cs a = lookupCell ds a := by
          by_cases hax : x = a
          · rw [← hax, lookupCell_of_above hx le_rfl, lookupCell_of_above hy le_rfl]
          · simpa [lookupCell, hax] using h a
        rw [hhead, ih hcs' hds' htail]
      · exact absurd (cellsAbove_cons hgt hx)
          (not_cellsAbove_of_reads_eq hd fun a => (h a).symm)

/-- Settles O11: outside the address space both read as unlisted, so the lists of cells are equal. -/
theorem equalReadsMeanEqualMemories : Obligations.EqualReadsMeanEqualMemories := by
  intro m m' hm hm' h
  have hall (a : Nat) : m.read a = m'.read a := by
    rcases Nat.lt_or_ge a addressCount with hlt | hge
    · exact h a hlt
    · rw [Memory.read_of_ge hm hge, Memory.read_of_ge hm' hge]
  exact congrArg Memory.mk (cells_eq_of_reads_eq hm hm' hall)

/-- Contents given below an address are those of some memory: written one byte after the other. -/
theorem exists_memory_below (f : Nat → Byte) {n : Nat} (hn : n ≤ addressCount) :
    ∃ m : Memory, m.wf ∧ ∀ a < n, m.read a = f a := by
  induction n with
  | zero => exact ⟨_, reset_mem_wf, fun a ha => absurd ha (Nat.not_lt_zero a)⟩
  | succ n ih =>
    obtain ⟨m, hwf, hread⟩ := ih (by omega)
    refine ⟨m.write n (f n), Memory.write_keeps_wf hwf n (f n), fun a ha => ?_⟩
    rw [Memory.read_write hwf hn]
    split_ifs with hna
    · rw [hna]
    · exact hread a (by omega)

/-- Settles O12, at the whole address space. -/
theorem everyContentsIsAMemory : Obligations.EveryContentsIsAMemory :=
  fun f => exists_memory_below f le_rfl

/-! ## Admission (R36, R37) -/

/-- The range that one access fits in, of one kind. -/
def exactRange (kind : Access) (n a : Nat) : Region :=
  ⟨a, n, decide (kind = .fetch), decide (kind = .load)⟩

theorem exactRange_allows (kind kind' : Access) (n a : Nat) :
    (exactRange kind n a).allows kind' = decide (kind = kind') := by
  cases kind' <;> rfl

/-- A range for each admitted address. -/
def exactRanges (kind : Access) (n : Nat) (admitted : Nat → Bool) : List Region :=
  ((List.range addressCount).filter admitted).map (exactRange kind n)

theorem mem_exactRanges {kind : Access} {n : Nat} {p : Nat → Bool} {r : Region} :
    r ∈ exactRanges kind n p ↔ ∃ a < addressCount, p a = true ∧ exactRange kind n a = r := by
  simp only [exactRanges, List.mem_map, List.mem_filter, List.mem_range, and_assoc]

/-- An access as wide as its ranges fits in exactly the range made for its address. -/
theorem exists_exactRange_iff {kind : Access} {n : Nat} {p : Nat → Bool} {a : Nat}
    (ha : a < addressCount) :
    (∃ r ∈ exactRanges kind n p, r.allows kind = true ∧ r.base ≤ a ∧ a + n ≤ r.base + r.size) ↔
      p a = true := by
  constructor
  · rintro ⟨r, hr, -, hlo, hhi⟩
    obtain ⟨b, -, hb, rfl⟩ := mem_exactRanges.mp hr
    obtain rfl : a = b := Nat.le_antisymm (Nat.le_of_add_le_add_right hhi) hlo
    exact hb
  · intro hp
    have hallows : (exactRange kind n a).allows kind = true := by
      rw [exactRange_allows, decide_eq_true rfl]
    exact ⟨_, mem_exactRanges.mpr ⟨a, ha, hp, rfl⟩, hallows, le_rfl, le_rfl⟩

/-- Ranges of the other kind allow nothing. -/
theorem not_exists_exactRange {kind kind' : Access} (hkind : kind ≠ kind') {n : Nat} {p : Nat → Bool}
    {q : Region → Prop} : ¬ ∃ r ∈ exactRanges kind n p, r.allows kind' = true ∧ q r := by
  rintro ⟨r, hr, hallows, -⟩
  obtain ⟨b, -, -, rfl⟩ := mem_exactRanges.mp hr
  rw [exactRange_allows, decide_eq_true_iff] at hallows
  exact hkind hallows

/-- Settles O13: a fetch range of 4 bytes and a load range of 8 for each address admitted. -/
theorem everyAdmissionIsAListOfRanges : Obligations.EveryAdmissionIsAListOfRanges := by
  refine fun fetch load =>
    ⟨exactRanges .fetch 4 fetch ++ exactRanges .load 8 load, fun c hc a => ⟨?_, ?_⟩⟩
  · rw [Bool.eq_iff_iff, Config.admits_iff, Bool.and_eq_true, decide_eq_true_iff, and_comm, hc]
    simp only [List.mem_append, or_and_right, exists_or, exists_exactRange_iff a.isLt,
      not_exists_exactRange (show Access.load ≠ Access.fetch by decide), or_false]
  · rw [Bool.eq_iff_iff, Config.admits_iff, Bool.and_eq_true, decide_eq_true_iff, and_comm, hc]
    simp only [List.mem_append, or_and_right, exists_or, exists_exactRange_iff a.isLt,
      not_exists_exactRange (show Access.fetch ≠ Access.load by decide), false_or]

end Sys2Proof.Machine
end

/-! The order of the events of one step (R95), and what every step and every run keeps (R23, R114). -/
section

namespace Sys2Proof.Machine

/-! ## Each event where nothing before it stops the step (R95) -/

section
variable {i : Instr} {s : State}

/-- A form that is allowed loads (R70). -/
theorem exec_of_formAllowed (h : formAllowed i s) :
    exec i s = loadDouble s (addressOf s i) (completedState i s) := by
  rcases exec_cases i s with ⟨-, e⟩ | ⟨hbad, -⟩
  · exact e
  · exact absurd h hbad

/-- A read that is not admitted faults with its address (R92). -/
theorem exec_of_not_admitted (hform : formAllowed i s) (hfp : s.msrFp = true)
    (hadmit : s.config.admits (addressOf s i) 8 .load = false) :
    exec i s = .fault (.memFault (addressOf s i)) := by
  simp [exec_of_formAllowed hform, loadDouble, raiseMemFault, hfp, hadmit]

/-- An instruction at the last address has no `pc + 4` to go on to (R16). -/
theorem exec_of_lastPc (hform : formAllowed i s) (hfp : s.msrFp = true)
    (hadmit : s.config.admits (addressOf s i) 8 .load = true) (hpc : s.pc = lastPc) :
    exec i s = .refused .pcWrap := by
  simp [exec_of_formAllowed hform, loadDouble, hfp, hadmit, hpc]

theorem step_of_final (h : s.final) : step s = .refused .runOver :=
  if_pos h

theorem step_of_misaligned (hend : s.pc ≠ s.config.codeEnd) (h : s.pc.toNat % 4 ≠ 0) :
    step s = .refused .pcMisaligned := by
  simp [step, fetchAndRun, hend, h]

/-- A fetch that is not admitted faults with `pc` (R92). -/
theorem step_of_fetch_not_admitted (hend : s.pc ≠ s.config.codeEnd) (halign : s.pc.toNat % 4 = 0)
    (h : s.config.admits s.pc 4 .fetch = false) : step s = .fault (.memFault s.pc) := by
  simp [step, fetchAndRun, raiseMemFault, hend, halign, h]

end

/-- Settles O25: the fetch comes before the instruction, and the form before the load. -/
theorem firstEventInOrderIsReported : Obligations.FirstEventInOrderIsReported := by
  intro s hend
  refine ⟨step_of_misaligned hend, step_of_fetch_not_admitted hend, fun i hi hbad => ?_,
    fun i hi hform hfp => ?_, fun i hi hform hfp hadmit => ?_, fun i hi hform hfp hadmit hpc => ?_⟩
  · exact (step_of_fetches hi).trans (exec_of_not_formAllowed hbad)
  · exact (step_of_fetches hi).trans (exec_of_msrFp_false hfp hform)
  · exact (step_of_fetches hi).trans (exec_of_not_admitted hform hfp hadmit)
  · exact (step_of_fetches hi).trans (exec_of_lastPc hform hfp hadmit hpc)

/-- No access past the top of the address space is admitted (R37). -/
theorem Config.not_admits_past_top {c : Config} {a : Address} {n : Nat} {kind : Access}
    (h : 2 ^ 32 < a.toNat + n) : c.admits a n kind = false := by
  rw [← Bool.not_eq_true, Config.admits_iff]
  exact fun hadmit => absurd hadmit.1 (Nat.not_le.mpr h)

/-- Settles O26: what reaches past the top is not admitted, and not admitted is a fault. -/
theorem accessPastTheTopFaults : Obligations.AccessPastTheTopFaults := by
  refine ⟨fun c a n kind => Config.not_admits_past_top, fun i s hform hfp hea => ?_,
    fun c r hr hlo hhi => ⟨fun hfetch => ?_, fun hload => ?_⟩⟩
  · exact exec_of_not_admitted hform hfp (Config.not_admits_past_top (by omega))
  · exact (Config.admits_iff _ _ _ _).mpr
      ⟨by decide, r, hr, hfetch, hlo.trans (by decide), le_trans (by decide) hhi⟩
  · exact (Config.admits_iff _ _ _ _).mpr
      ⟨by decide, r, hr, hload, hlo.trans (by decide), le_trans (by decide) hhi⟩

/-- Settles O27, by the definition of `fetches`. -/
theorem stepRunsTheDecodedInstruction : Obligations.StepRunsTheDecodedInstruction :=
  fun _ _ hend halign hfetch hdecode => step_of_fetches ⟨hend, halign, hfetch, hdecode⟩

/-! ## What one step keeps -/

theorem exec_mem {i : Instr} {s t : State} (h : exec i s = .next t) : t.mem = s.mem := by
  obtain ⟨-, rfl⟩ := exec_next h
  exact completedState_mem i s _

section
variable {s t : State}

theorem step_mem (h : step s = .next t) : t.mem = s.mem := by
  obtain ⟨i, -, -, -, -, -, rfl⟩ := step_next h
  exact completedState_mem i s _

theorem step_config (h : step s = .next t) : t.config = s.config := by
  obtain ⟨i, -, -, -, -, -, rfl⟩ := step_next h
  exact completedState_config i s _

/-- A step completes only with the unit enabled, and leaves it so (R17). -/
theorem step_msrFp (h : step s = .next t) : s.msrFp = true ∧ t.msrFp = true := by
  obtain ⟨i, -, -, -, -, ⟨-, hfp, -⟩, rfl⟩ := step_next h
  exact ⟨hfp, (completedState_msrFp i s _).trans hfp⟩

/-- Below the last address of a fetch there is room for 4. -/
theorem toNat_add_four {pc : Address} (halign : pc.toNat % 4 = 0) (hlast : pc ≠ lastPc) :
    (pc + 4).toNat = pc.toNat + 4 := by
  have hne : pc.toNat ≠ 0xFFFFFFFC := fun e => hlast (BitVec.eq_of_toNat_eq e)
  have hlt := pc.isLt
  rw [BitVec.toNat_add, show (4 : Address).toNat = 4 from rfl]
  omega

/-- `pc` goes up by 4 as a number: a step starts at a multiple of 4 that is not the last (R16, R40). -/
theorem step_pc (h : step s = .next t) : t.pc.toNat = s.pc.toNat + 4 := by
  obtain ⟨i, -, halign, -, -, ⟨-, -, -, hlast⟩, rfl⟩ := step_next h
  rw [completedState_pc]
  exact toNat_add_four halign hlast

/-- Only a misaligned `pc` is refused as one: no instruction refuses it (R40). -/
theorem misaligned_of_step_refused (h : step s = .refused .pcMisaligned) : s.pc.toNat % 4 ≠ 0 := by
  rcases fetchAndRun_cases s fun i => exec i s with
    ⟨-, e⟩ | ⟨-, hbad, -⟩ | ⟨-, -, -, e⟩ | ⟨-, -, -, -, e⟩ | ⟨-, -, -, i, -, e⟩
  · rw [step, e] at h; cases h
  · exact hbad
  · rw [step, e] at h; cases h
  · rw [step, e] at h; cases h
  · rw [step, e] at h
    rcases exec_refused h with ⟨e, -⟩ | ⟨e, -⟩ <;> cases e

end

/-- Settles O30: memory and `CODE_END` are as before, and `pc` is 4 more. -/
theorem everyStepKeepsLaunchWellFormed : Obligations.EveryStepKeepsLaunchWellFormed := by
  rintro s t ⟨hpc, hend, hwf⟩ h
  refine ⟨?_, ?_, ?_⟩
  · rw [step_pc h, Nat.add_mod_right, hpc]
  · rw [step_config h, hend]
  · rw [step_mem h]
    exact hwf

/-- Settles O31, field by field. -/
theorem resetIsAWellFormedLaunch : Obligations.ResetIsAWellFormedLaunch :=
  ⟨⟨rfl, rfl, reset_mem_wf⟩, rfl, rfl⟩

/-! ## Runs (R114) -/

/-- What every step keeps holds of the state a run stands in. -/
theorem run_state_of_kept {P : State → Prop} (hstep : ∀ s t, P s → step s = .next t → P t) (k : Nat)
    {s : State} (h : P s) : P (run k s).state := by
  induction k generalizing s with
  | zero =>
    unfold run
    split_ifs <;> exact h
  | succ k ih =>
    unfold run
    split_ifs
    · exact h
    · cases e : step s with
      | next t => exact ih (hstep s t h e)
      | fault => exact h
      | refused => exact h

theorem run_of_final {s : State} (h : s.final) (k : Nat) : run k s = .final s := by
  cases k <;> simp only [run, if_pos h]

/-- A run is refused by the step in the state it stands in (R98). -/
theorem step_of_run_refused {k : Nat} {s t : State} {r : Refusal} (h : run k s = .refused t r) :
    step t = .refused r := by
  induction k generalizing s with
  | zero =>
    unfold run at h
    split_ifs at h
  | succ k ih =>
    unfold run at h
    split_ifs at h
    cases e : step s with
    | next => exact ih (by simpa only [e] using h)
    | fault => simp only [e] at h; cases h
    | refused => simp only [e] at h; cases h; exact e

/-- A run that is over stands at `CODE_END`, each step having gone up by 4. -/
theorem run_final {k : Nat} {s t : State} (h : run k s = .final t) :
    t.pc = s.config.codeEnd ∧ ∃ n ≤ k, t.pc.toNat = s.pc.toNat + 4 * n := by
  induction k generalizing s with
  | zero =>
    unfold run at h
    split_ifs at h with hend
    cases h
    exact ⟨hend, 0, le_rfl, rfl⟩
  | succ k ih =>
    unfold run at h
    split_ifs at h with hend
    · cases h
      exact ⟨hend, 0, Nat.zero_le _, rfl⟩
    · cases e : step s with
      | next u =>
        obtain ⟨hpc, n, hn, hsum⟩ := ih (by simpa only [e] using h)
        refine ⟨by rw [hpc, step_config e], n + 1, Nat.succ_le_succ hn, ?_⟩
        rw [hsum, step_pc e]
        ring
      | fault => simp only [e] at h; cases h
      | refused => simp only [e] at h; cases h

/-- Settles O23: a step that completes finds the unit enabled, so a disabled launch is never left. -/
theorem nothingRunsWithTheUnitDisabled : Obligations.NothingRunsWithTheUnitDisabled := by
  refine ⟨fun s t => step_msrFp, fun k s hfp => ?_⟩
  refine run_state_of_kept (P := (· = s)) (fun u v hu hstep => ?_) k rfl
  obtain ⟨hon, -⟩ := step_msrFp hstep
  rw [hu, hfp] at hon
  cases hon

/-- Settles O32: that memory is the launch's is kept by every step. -/
theorem memoryIsConstantDuringARun : Obligations.MemoryIsConstantDuringARun :=
  ⟨fun _ _ _ => exec_mem, fun k s =>
    run_state_of_kept (P := (·.mem = s.mem)) (fun _ _ h hstep => (step_mem hstep).trans h) k rfl⟩

/-- Settles O33: the state of every run is well formed, and only a misaligned `pc` is refused as one. -/
theorem alignedLaunchStaysAligned : Obligations.AlignedLaunchStaysAligned := by
  intro k s h
  have halign : (run k s).state.pc.toNat % 4 = 0 :=
    (run_state_of_kept everyStepKeepsLaunchWellFormed k h).1
  refine ⟨halign, fun t e => ?_⟩
  rw [e] at halign
  exact misaligned_of_step_refused (step_of_run_refused e) halign

/-- Settles O34, by induction on the number of steps allowed. -/
theorem programCounterNeverWraps : Obligations.ProgramCounterNeverWraps :=
  ⟨fun _ _ => step_pc, fun _ _ _ => run_final⟩

/-- Settles O35: the end of the run is tested before anything else. -/
theorem noStepAtTheEndOfTheRun : Obligations.NoStepAtTheEndOfTheRun :=
  fun _ h => ⟨step_of_final h, run_of_final h⟩

end Sys2Proof.Machine
end

/-! A word placed where the step fetches, and two loads over one base (R111, R113, R115). -/
section

namespace Sys2Proof.Machine

/-! ## Placing a word (log 28) -/

/-- The word placed by its number is the word. -/
theorem tableWord_toNat (w : Word) : tableWord 32 w.toNat = w := by
  rw [tableWord, Nat.mod_eq_of_lt w.isLt, BitVec.ofNat_toNat, BitVec.setWidth_eq]

/-- An aligned `pc` leaves room for a word below the top of the address space. -/
theorem add_four_le_of_aligned {pc : Address} (h : pc.toNat % 4 = 0) :
    pc.toNat + 4 ≤ addressCount := by
  have hlt := pc.isLt
  unfold addressCount
  omega

/-- A word written where it fits is the word read there (R39). -/
theorem memRead4_writeBytes {m : Memory} (h : m.wf) {a : Nat} (ha : a + 4 ≤ addressCount) (w : Word) :
    memRead4 (m.writeBytes a (bytesOfWord w)) a = w := by
  have hbyte (k : Nat) (hk : k < 4) :
      (m.writeBytes a (bytesOfWord w)).read (a + k) = (bytesOfWord w).getD k 0 := by
    rw [Memory.read_writeBytes h ha, if_pos ⟨Nat.le_add_right a k, Nat.add_lt_add_left hk a⟩,
      Nat.add_sub_cancel_left]
  have hfirst : (m.writeBytes a (bytesOfWord w)).read a = _ := hbyte 0 (by decide)
  rw [memRead4, hfirst, hbyte 1 (by decide), hbyte 2 (by decide), hbyte 3 (by decide)]
  exact concat_bytesOfWord w

/-- The fetch of a placed word is admitted. -/
theorem Config.openAt_admits (c : Config) {pc : Address} (h : pc.toNat + 4 ≤ addressCount) :
    (c.openAt pc).admits pc 4 .fetch = true := by
  by_cases hadmit : c.admits pc 4 .fetch = true
  · rw [← hadmit]
    exact Config.admits_congr (by simp [Config.openAt, hadmit]) _ _ _
  · exact (Config.admits_iff _ _ _ _).mpr
      ⟨h, ⟨pc.toNat, 4, true, false⟩, by simp [Config.openAt, hadmit], rfl, le_rfl, le_rfl⟩

/-- The run is not over where the word was placed. -/
theorem Config.openAt_codeEnd_ne (c : Config) (pc : Address) : pc ≠ (c.openAt pc).codeEnd := by
  by_cases h : c.codeEnd = pc
  · simp [Config.openAt, h]
  · simpa [Config.openAt, h] using Ne.symm h

/-- The step comes to the instruction whose word was placed. -/
theorem fetches_placeWord {s : State} (h : s.launchOk) {w : Word} {i : Instr}
    (hdecode : decode w = .ok i) : fetches (s.placeWord w) i := by
  obtain ⟨halign, -, hwf⟩ := h
  have hfit := add_four_le_of_aligned halign
  refine ⟨s.config.openAt_codeEnd_ne s.pc, halign, s.config.openAt_admits hfit, ?_⟩
  rw [← hdecode]
  exact congrArg decode (memRead4_writeBytes hwf hfit w)

/-- Settles O36: the word is fetched where it was written, and nothing else was written. -/
theorem placedWordIsRunNext : Obligations.PlacedWordIsRunNext := by
  intro s i h
  rw [State.withFetchWord, tableWord_toNat]
  refine ⟨step_of_fetches (fetches_placeWord h (decode_encode i)), rfl, rfl, rfl, rfl, fun a ha => ?_⟩
  obtain ⟨halign, -, hwf⟩ := h
  have houtside : ¬ (s.pc.toNat ≤ a ∧ a < s.pc.toNat + (bytesOfWord (encode i)).length) := by
    rintro ⟨hlo, hhi⟩
    rcases ha with hlt | hge
    · exact Nat.not_le.mpr hlt hlo
    · exact Nat.not_lt.mpr hge hhi
  exact (Memory.read_writeBytes hwf (add_four_le_of_aligned halign) a).trans (if_neg houtside)

/-! ## Two loads over one base (R115) -/

/-- The register an update form updates is the one in its RA field. -/
theorem baseOf_of_updatedBase {i : Instr} {ra : GprNum} (h : updatedBase i = some ra) :
    baseOf i = ra := by
  cases i <;> cases h <;> rfl

/-- The offset is formed from the general registers. -/
theorem offsetOf_congr {s t : State} (h : ∀ n, s.readGpr n = t.readGpr n) (i : Instr) :
    offsetOf s i = offsetOf t i := by
  cases i with
  | lfd => rfl
  | lfdu => rfl
  | lfdux _ _ rb => exact h rb
  | lfdx _ _ rb => exact h rb

/-- An update form that completed allows the form of the next instruction over the same register. -/
theorem formAllowed_of_same_base {s t : State} {i j : Instr} {ra : GprNum}
    (hi : updatedBase i = some ra) (hj : baseOf j = ra) (hform : formAllowed i s)
    (hconfig : t.config = s.config) : formAllowed j t := by
  refine formAllowed_iff.mpr fun rb hrb => ?_
  obtain rfl : rb = ra := (baseOf_of_updatedBase hrb).symm.trans hj
  rw [hconfig]
  exact formAllowed_iff.mp hform rb hi

/-- The register in the RA field after an instruction: updated, or as before. -/
theorem exec_readGpr_base {i : Instr} {s t : State} (h : exec i s = .next t) :
    t.readGpr (baseOf i) =
      if updatedBase i = none then s.readGpr (baseOf i) else raUpdate s (sumOf s i) := by
  obtain ⟨-, rfl⟩ := exec_next h
  cases i <;> simp [completedState, baseOf, updatedBase]

/-- After an instruction over RA, the general registers are those before with RA replaced. -/
theorem readGpr_of_updated {s t : State} {i : Instr} {ra : GprNum} {base : Double}
    (hi : updatedBase i = some ra) (hframe : ∀ n, updatedBase i ≠ some n → t.readGpr n = s.readGpr n)
    (hbase : t.readGpr ra = base) (n : GprNum) : t.readGpr n = (s.setGpr ra base).readGpr n := by
  by_cases hn : n = ra
  · rw [hn, State.setGpr_readGpr_self, hbase]
  · rw [State.setGpr_readGpr_of_ne _ _ _ _ hn]
    refine hframe n fun e => hn ?_
    rw [hi] at e
    exact (Option.some.inj e).symm

/-- Settles O37: `exec_spec` of the one instruction in the state that `exec_spec` of the other leaves. -/
theorem updatedBaseFeedsTheNextLoad : Obligations.UpdatedBaseFeedsTheNextLoad := by
  intro s t i j ra base sum hi hj hzero hfetchi hstep hfetchj hbase hsum hadmit hpc
  rw [step_of_fetches hfetchi] at hstep
  have hmem := exec_mem hstep
  obtain ⟨hcompletes, -⟩ := exec_next hstep
  obtain ⟨t', hexec, hfd, hupdate, hnext, hfpr, hgpr, hfp, hconfig, -⟩ := exec_spec hcompletes
  obtain rfl : t' = t := by rw [hstep] at hexec; cases hexec; rfl
  have hra : t'.readGpr ra = base := (hupdate ra hi).trans hbase.symm
  have hregs := readGpr_of_updated hi hgpr hra
  have hsumj : sumOf t' j = sum := by
    rw [sumOf_eq_base_add_offset (by rwa [hj]), hj, hra, offsetOf_congr hregs, hsum]
  have ⟨hform, hon, _⟩ := hcompletes
  have hcompletesj : completes j t' := by
    refine ⟨formAllowed_of_same_base hi hj hform hconfig, hfp.trans hon, ?_, hpc⟩
    rw [hconfig, addressOf, hsumj]
    exact hadmit
  obtain ⟨u, hexecj, hfdj, -, hnextj, hfprj, hgprj, -⟩ := exec_spec hcompletesj
  have hraj := exec_readGpr_base hexecj
  rw [hj] at hraj
  have hkeep (n : GprNum) (hn : n ≠ ra) : updatedBase j ≠ some n := fun e =>
    hn ((baseOf_of_updatedBase e).symm.trans hj)
  refine ⟨u, (step_of_fetches hfetchj).trans hexecj, ?_, fun hne => ?_, ?_, fun n hn => ?_,
    fun n hni hnj => (hfprj n hnj).trans (hfpr n hni), ?_⟩
  · rw [hfdj, hmem, addressOf, hsumj]
    rfl
  · rw [hfprj _ hne.symm, hfd]
  · rw [hraj, hra, raUpdate, hconfig, hsumj]
    rfl
  · rw [hgprj n (hkeep n hn), hregs, State.setGpr_readGpr_of_ne _ _ _ _ hn]
  · rw [hnextj, hnext, BitVec.add_assoc]
    rfl

end Sys2Proof.Machine
end

/-! The step against the one block of pseudocode of R113. -/
section

namespace Sys2Proof.Machine

/-! ## The kinds of the reference -/

/-- The instruction of a kind, with the fields of the word as operands (R52, R53). -/
def LoadKind.instr (w : Word) : LoadKind → Instr
  | .lfd => .lfd (frtField w) (raField w) (dField w)
  | .lfdu => .lfdu (frtField w) (raField w) (dField w)
  | .lfdx => .lfdx (frtField w) (raField w) (rbField w)
  | .lfdux => .lfdux (frtField w) (raField w) (rbField w)

/-- The masks of the reference select the instruction that the decoder's fields select (R51, R56). -/
theorem decode_of_kindByMask {w : Word} {kind : LoadKind} (h : kindByMask w = some kind) :
    decode w = .ok (kind.instr w) := by
  obtain ⟨elfd, elfdu, elfdx, elfdux⟩ := encode_zero_operands
  rw [decode_eq_ok_iff]
  unfold kindByMask at h
  split_ifs at h with hlfd hlfdu hlfdx hlfdux <;> cases h
  · exact ⟨and_maskD_eq_iff.mp (hlfd.trans elfd.symm), rfl, rfl, rfl⟩
  · exact ⟨and_maskD_eq_iff.mp (hlfdu.trans elfdu.symm), rfl, rfl, rfl⟩
  · exact ⟨and_maskX_eq_iff.mp (hlfdx.trans elfdx.symm), rfl, rfl, rfl⟩
  · exact ⟨and_maskX_eq_iff.mp (hlfdux.trans elfdux.symm), rfl, rfl, rfl⟩

/-- A word of no kind is of no row (R61). -/
theorem decode_of_no_kind {w : Word} (h : kindByMask w = none) : decode w = .error (.notInSpec w) := by
  unfold kindByMask at h
  split_ifs at h with hlfd hlfdu hlfdx hlfdux
  exact decode_of_no_match hlfd hlfdu hlfdx hlfdux

section
variable (w : Word) (kind : LoadKind) (s : State)

/-- The reference's test of the form is the one of R59. -/
theorem LoadKind.form_test :
    (kind.updates && decide (raField w = 0) && decide (s.config.invalidForm = .refuse)) =
      !decide (formAllowed (kind.instr w) s) := by
  have hpolicy : s.config.invalidForm = .asInterpreter ↔ ¬ s.config.invalidForm = .refuse := by
    cases s.config.invalidForm <;> decide
  cases kind <;>
    simp [LoadKind.updates, LoadKind.instr, formAllowed, Instr.wellFormed, hpolicy]

/-- The reference's base and offset are the operands of R55. -/
theorem LoadKind.base_add_offset :
    (if !kind.updates && decide (raField w = 0) then 0 else s.readGpr (raField w)) +
        (if decide (kind = .lfd) || decide (kind = .lfdu) then (dField w).signExtend 64
          else s.readGpr (rbField w)) =
      sumOf s (kind.instr w) := by
  cases kind <;>
    simp [LoadKind.updates, LoadKind.instr, sumOf, addressSum, operandRA0, operandRA, operandRB,
      operandD]

/-- The reference's next state is the one of R70. -/
theorem LoadKind.next_state (v : Double) :
    (if kind.updates then
        (s.setFpr (frtField w) v).setGpr (raField w) (raUpdate s (sumOf s (kind.instr w)))
      else s.setFpr (frtField w) v).setPc (s.pc + 4) =
      completedState (kind.instr w) s v := by
  cases kind <;> rfl

/-- A load with its value as R31 writes it. -/
theorem loadDouble_eq_reference (ea : Address) (finish : Double → State) :
    loadDouble s ea finish =
      if !s.msrFp then .fault .fpUnavailable
      else if !s.config.admits ea 8 .load then .fault (.memFault ea)
      else if s.pc = lastPc then .refused .pcWrap
      else .next (finish (memRead8 s.mem ea.toNat)) := by
  simp only [loadDouble, raiseFpUnavailable, raiseMemFault, Memory.read64_eq_memRead8,
    Bool.not_eq_true']

/-- From the decoded kind on the reference is the instruction. -/
theorem referenceLoad_eq_exec : referenceLoad w kind s = exec (kind.instr w) s := by
  have hfrt : (w >>> 21).setWidth 5 = frtField w := rfl
  have hra : (w >>> 16).setWidth 5 = raField w := rfl
  have hrb : (w >>> 11).setWidth 5 = rbField w := rfl
  have hd : w.setWidth 16 = dField w := rfl
  simp only [referenceLoad, hfrt, hra, hrb, hd, LoadKind.form_test, LoadKind.base_add_offset]
  by_cases hform : formAllowed (kind.instr w) s
  · rw [exec_of_formAllowed hform, loadDouble_eq_reference, ← LoadKind.next_state, decide_eq_true hform]
    rfl
  · rw [exec_of_not_formAllowed hform, decide_eq_false hform]
    rfl

end

/-- The reference tests the two low bits of `pc` (R40). -/
theorem and_three_ne_zero_iff (pc : Address) : pc &&& 3#32 ≠ 0#32 ↔ pc.toNat % 4 ≠ 0 := by
  rw [ne_eq, ← BitVec.toNat_inj, BitVec.toNat_and]
  exact not_congr (Eq.congr_left (Nat.and_two_pow_sub_one_eq_mod pc.toNat 2))

/-- Settles O29: test by test, then the kind by its mask is the instruction decoded. -/
theorem stepIsTheReferenceStep : Obligations.StepIsTheReferenceStep := by
  intro s
  have hinsn : s.mem.read s.pc.toNat ++ s.mem.read (s.pc.toNat + 1) ++ s.mem.read (s.pc.toNat + 2) ++
      s.mem.read (s.pc.toNat + 3) = memRead4 s.mem s.pc.toNat := rfl
  simp only [step, fetchAndRun, raiseMemFault, referenceStep, hinsn, and_three_ne_zero_iff,
    Bool.not_eq_true', Memory.read32_eq_memRead4]
  split_ifs
  · rfl
  · rfl
  · rfl
  · cases hkind : kindByMask (memRead4 s.mem s.pc.toNat) with
    | some kind =>
      rw [decode_of_kindByMask hkind]
      exact (referenceLoad_eq_exec _ kind s).symm
    | none => rw [decode_of_no_kind hkind]

end Sys2Proof.Machine
end
